-- ==== Sys2Proof/Word.lean ====
section
/-! DEFINITION. The widths of CHIP8-CORE (spec/00_scope.md R5 to R8): bytes, 16-bit words and addresses,
register numbers. -/

namespace Sys2Proof

/-- An 8-bit value: a byte of MEM, a register of V, a timer (R5). -/
abbrev Byte := BitVec 8

/-- A 4-bit field of an instruction word (R71). -/
abbrev Nibble := BitVec 4

/-- A 16-bit value: an instruction word, the index register, the program counter, a stack entry (R5). -/
abbrev Word := BitVec 16

/-- A register number, 0 to 15: always a valid index of V (R8). -/
abbrev Reg := Fin 16

end Sys2Proof
end

