-- ==== Sys2Proof/Syntax.lean ====
section
/-! DEFINITION. The instructions of CHIP8-CORE: one constructor per row of spec/opcode_table.json, with the operand
fields the row names (spec/30_encoding.md R71 to R73, R80). A nibble the row calls a don't-care that is no field of the
row (x of 00E0 and 00EE, n of 5xy_ and 9xy_; R79) is no operand. -/

namespace Sys2Proof

/-- One constructor per row of spec/opcode_table.json, in the table's order. `x` and `y` are register numbers, `kk` an
8-bit and `nnn` a 12-bit immediate; a sprite height and a register count are numbers (R72), which WellFormed bounds. -/
inductive Instr where
  /-- `00E0`, CLS (R171). -/
  | cls
  /-- `00EE`, RET (R133). -/
  | ret
  /-- `1nnn`, JP (R131). -/
  | jp (nnn : BitVec 12)
  /-- `2nnn`, CALL (R132). -/
  | call (nnn : BitVec 12)
  /-- `3xkk`, SE_IMM (R135). -/
  | seImm (x : Reg) (kk : Byte)
  /-- `4xkk`, SNE_IMM (R136). -/
  | sneImm (x : Reg) (kk : Byte)
  /-- `5xy_`, SE_REG (R137). -/
  | seReg (x y : Reg)
  /-- `6xkk`, LD_IMM (R111). -/
  | ldImm (x : Reg) (kk : Byte)
  /-- `7xkk`, ADD_IMM (R112). -/
  | addImm (x : Reg) (kk : Byte)
  /-- `8xy0`, LD_REG (R113). -/
  | ldReg (x y : Reg)
  /-- `8xy1`, OR (R114). -/
  | or (x y : Reg)
  /-- `8xy2`, AND (R115). -/
  | and (x y : Reg)
  /-- `8xy3`, XOR (R116). -/
  | xor (x y : Reg)
  /-- `8xy4`, ADD_REG (R117). -/
  | addReg (x y : Reg)
  /-- `8xy5`, SUB (R118). -/
  | sub (x y : Reg)
  /-- `8xy6`, SHR (R119); `y` is a field of the row that the instruction ignores. -/
  | shr (x y : Reg)
  /-- `8xy7`, SUBN (R120). -/
  | subn (x y : Reg)
  /-- `8xyE`, SHL (R121); `y` is a field of the row that the instruction ignores. -/
  | shl (x y : Reg)
  /-- `9xy_`, SNE_REG (R138). -/
  | sneReg (x y : Reg)
  /-- `Annn`, LD_I (R151). -/
  | ldI (nnn : BitVec 12)
  /-- `Bnnn`, JP_V0 (R134). -/
  | jpV0 (nnn : BitVec 12)
  /-- `Cxkk`, RND (R123). -/
  | rnd (x : Reg) (kk : Byte)
  /-- `Dxyn`, DRW (R172); `height` is the number of sprite rows, 0 to 15. -/
  | drw (x y : Reg) (height : Nat)
  /-- `Ex9E`, SKP (R196). -/
  | skp (x : Reg)
  /-- `ExA1`, SKNP (R197). -/
  | sknp (x : Reg)
  /-- `Fx07`, LD_VX_DT (R186). -/
  | ldVxDt (x : Reg)
  /-- `Fx0A`, LD_VX_K (R198). -/
  | ldVxK (x : Reg)
  /-- `Fx15`, LD_DT_VX (R187). -/
  | ldDtVx (x : Reg)
  /-- `Fx18`, LD_ST_VX (R188). -/
  | ldStVx (x : Reg)
  /-- `Fx1E`, ADD_I (R152). -/
  | addI (x : Reg)
  /-- `Fx29`, LD_F (R153). -/
  | ldF (x : Reg)
  /-- `Fx33`, LD_B (R154). -/
  | ldB (x : Reg)
  /-- `Fx55`, ST_REGS (R155); the field `x` is a count of registers, 0 to 15. -/
  | stRegs (count : Nat)
  /-- `Fx65`, LD_REGS (R156); the field `x` is a count of registers, 0 to 15. -/
  | ldRegs (count : Nat)
deriving DecidableEq, Repr

end Sys2Proof
end

