-- ==== Sys2Proof/WellFormed.lean ====
section
/-! DEFINITION. Which terms of Instr stand for an instruction the hardware has. Register numbers and immediates carry
their bounds in their types; the three operands that are numbers (a sprite height, two register counts) must fit their
4-bit field (spec/30_encoding.md R72, spec/44_sprite.md R172, spec/43_index_and_memory.md R155, R156). -/

namespace Sys2Proof

/-- `i` is an instruction some word encodes: a height and a count are at most 15. -/
def Instr.wellFormed : Instr → Bool
  | .drw _ _ height => decide (height ≤ 15)
  | .stRegs count => decide (count ≤ 15)
  | .ldRegs count => decide (count ≤ 15)
  | .cls => true
  | .ret => true
  | .jp _ => true
  | .call _ => true
  | .seImm _ _ => true
  | .sneImm _ _ => true
  | .seReg _ _ => true
  | .ldImm _ _ => true
  | .addImm _ _ => true
  | .ldReg _ _ => true
  | .or _ _ => true
  | .and _ _ => true
  | .xor _ _ => true
  | .addReg _ _ => true
  | .sub _ _ => true
  | .shr _ _ => true
  | .subn _ _ => true
  | .shl _ _ => true
  | .sneReg _ _ => true
  | .ldI _ => true
  | .jpV0 _ => true
  | .rnd _ _ => true
  | .skp _ => true
  | .sknp _ => true
  | .ldVxDt _ => true
  | .ldVxK _ => true
  | .ldDtVx _ => true
  | .ldStVx _ => true
  | .addI _ => true
  | .ldF _ => true
  | .ldB _ => true

end Sys2Proof
end

