-- ==== Sys2Proof/Decode.lean ====
section
/-! DEFINITION. The decoder and the encoder (spec/30_encoding.md R70 to R82, spec/40_cycle_dispatch.md R92, R93): a word
is cut into the fields of the opcode descriptor (total, R92), the descriptor selects an instruction in two levels or none
(R93); the encoder lays the fields out again, with 0 in a nibble that is no operand (R80). -/

namespace Sys2Proof

/-! ## Fields -/

/-- The opcode descriptor (R92), a derived value that is never state (R33(a)). `lo` is also `kk`. -/
structure Descriptor where
  hi : Byte
  lo : Byte
  cls : Nibble
  x : Nibble
  y : Nibble
  n : Nibble
  nnn : BitVec 12
deriving DecidableEq, Repr

/-- `Decode(w)` of R92: the fields of R71; total over all 65536 words. -/
def describe (w : Word) : Descriptor where
  hi := w.extractLsb' 8 8
  lo := w.extractLsb' 0 8
  cls := w.extractLsb' 12 4
  x := w.extractLsb' 8 4
  y := w.extractLsb' 4 4
  n := w.extractLsb' 0 4
  nnn := w.extractLsb' 0 12

/-- A 4-bit field used as a register number (R72). -/
def regOf (f : Nibble) : Reg := f.toFin

/-! ## Dispatch -/

/-- Class 0x0, selected by the low byte; the field x is not looked at (R75). -/
def selectClass0 (d : Descriptor) : Option Instr :=
  if d.lo = 0xE0#8 then some .cls
  else if d.lo = 0xEE#8 then some .ret
  else none

/-- Class 0x8, selected by `n` (R76). -/
def selectClass8 (d : Descriptor) : Option Instr :=
  if d.n = 0x0#4 then some (.ldReg (regOf d.x) (regOf d.y))
  else if d.n = 0x1#4 then some (.or (regOf d.x) (regOf d.y))
  else if d.n = 0x2#4 then some (.and (regOf d.x) (regOf d.y))
  else if d.n = 0x3#4 then some (.xor (regOf d.x) (regOf d.y))
  else if d.n = 0x4#4 then some (.addReg (regOf d.x) (regOf d.y))
  else if d.n = 0x5#4 then some (.sub (regOf d.x) (regOf d.y))
  else if d.n = 0x6#4 then some (.shr (regOf d.x) (regOf d.y))
  else if d.n = 0x7#4 then some (.subn (regOf d.x) (regOf d.y))
  else if d.n = 0xE#4 then some (.shl (regOf d.x) (regOf d.y))
  else none

/-- Class 0xE, selected by the low byte (R77). -/
def selectClassE (d : Descriptor) : Option Instr :=
  if d.lo = 0x9E#8 then some (.skp (regOf d.x))
  else if d.lo = 0xA1#8 then some (.sknp (regOf d.x))
  else none

/-- Class 0xF, selected by the low byte (R78). -/
def selectClassF (d : Descriptor) : Option Instr :=
  if d.lo = 0x07#8 then some (.ldVxDt (regOf d.x))
  else if d.lo = 0x0A#8 then some (.ldVxK (regOf d.x))
  else if d.lo = 0x15#8 then some (.ldDtVx (regOf d.x))
  else if d.lo = 0x18#8 then some (.ldStVx (regOf d.x))
  else if d.lo = 0x1E#8 then some (.addI (regOf d.x))
  else if d.lo = 0x29#8 then some (.ldF (regOf d.x))
  else if d.lo = 0x33#8 then some (.ldB (regOf d.x))
  else if d.lo = 0x55#8 then some (.stRegs d.x.toNat)
  else if d.lo = 0x65#8 then some (.ldRegs d.x.toNat)
  else none

/-- The two-level selection of R93 (R74): first the class, then, for classes 0x0, 0x8, 0xE and 0xF, the secondary
selector; `none` is an unrecognised word (R79). -/
def select (d : Descriptor) : Option Instr :=
  match d.cls.toNat with
  | 0x0 => selectClass0 d
  | 0x1 => some (.jp d.nnn)
  | 0x2 => some (.call d.nnn)
  | 0x3 => some (.seImm (regOf d.x) d.lo)
  | 0x4 => some (.sneImm (regOf d.x) d.lo)
  | 0x5 => some (.seReg (regOf d.x) (regOf d.y))
  | 0x6 => some (.ldImm (regOf d.x) d.lo)
  | 0x7 => some (.addImm (regOf d.x) d.lo)
  | 0x8 => selectClass8 d
  | 0x9 => some (.sneReg (regOf d.x) (regOf d.y))
  | 0xA => some (.ldI d.nnn)
  | 0xB => some (.jpV0 d.nnn)
  | 0xC => some (.rnd (regOf d.x) d.lo)
  | 0xD => some (.drw (regOf d.x) (regOf d.y) d.n.toNat)
  | 0xE => selectClassE d
  | _ => selectClassF d

/-- The instruction a word selects, or `none` for the 13872 unrecognised words of R79. -/
def decodeWord (w : Word) : Option Instr := select (describe w)

/-! ## Bytes -/

/-- Why bytes give no instruction. -/
inductive DecodeError where
  /-- The word matches no row of the opcode table (R79). -/
  | unrecognized (w : Word)
  /-- Fewer than two bytes: an instruction is exactly two (R70). -/
  | tooFewBytes
deriving DecidableEq, Repr

/-- Two consecutive bytes combined big-endian (R53, R91): the first byte is the high byte. -/
def wordOfBytes (hi lo : Byte) : Word := hi ++ lo

/-- The decoder on any bytes: the instruction of the first two and the bytes after them. -/
def decodeBytes : List Byte → Except DecodeError (Instr × List Byte)
  | hi :: lo :: rest =>
    match decodeWord (wordOfBytes hi lo) with
    | some i => .ok (i, rest)
    | none => .error (.unrecognized (wordOfBytes hi lo))
  | _ => .error .tooFewBytes

/-! ## Encoder -/

/-- A word from its four nibbles, most significant first (R71). -/
def packNibbles (cls x y n : Nibble) : Word := cls ++ x ++ y ++ n

/-- A word of format XKK or X: class, x, low byte (R73). -/
def packByte (cls x : Nibble) (lo : Byte) : Word := cls ++ x ++ lo

/-- A word of format NNN: class, 12-bit field (R73). -/
def packAddr (cls : Nibble) (nnn : BitVec 12) : Word := cls ++ nnn

/-- A register number as a 4-bit field. -/
def nibbleOf (x : Reg) : Nibble := BitVec.ofFin x

/-- A count or height as a 4-bit field; a well-formed one is at most 15. -/
def nibbleOfNat (k : Nat) : Nibble := BitVec.ofNat 4 k

/-- The canonical encoding of an instruction (R74 to R78, R80): 0 in a don't-care nibble. -/
def encode : Instr → Word
  | .cls => packByte 0x0#4 0x0#4 0xE0#8
  | .ret => packByte 0x0#4 0x0#4 0xEE#8
  | .jp nnn => packAddr 0x1#4 nnn
  | .call nnn => packAddr 0x2#4 nnn
  | .seImm x kk => packByte 0x3#4 (nibbleOf x) kk
  | .sneImm x kk => packByte 0x4#4 (nibbleOf x) kk
  | .seReg x y => packNibbles 0x5#4 (nibbleOf x) (nibbleOf y) 0x0#4
  | .ldImm x kk => packByte 0x6#4 (nibbleOf x) kk
  | .addImm x kk => packByte 0x7#4 (nibbleOf x) kk
  | .ldReg x y => packNibbles 0x8#4 (nibbleOf x) (nibbleOf y) 0x0#4
  | .or x y => packNibbles 0x8#4 (nibbleOf x) (nibbleOf y) 0x1#4
  | .and x y => packNibbles 0x8#4 (nibbleOf x) (nibbleOf y) 0x2#4
  | .xor x y => packNibbles 0x8#4 (nibbleOf x) (nibbleOf y) 0x3#4
  | .addReg x y => packNibbles 0x8#4 (nibbleOf x) (nibbleOf y) 0x4#4
  | .sub x y => packNibbles 0x8#4 (nibbleOf x) (nibbleOf y) 0x5#4
  | .shr x y => packNibbles 0x8#4 (nibbleOf x) (nibbleOf y) 0x6#4
  | .subn x y => packNibbles 0x8#4 (nibbleOf x) (nibbleOf y) 0x7#4
  | .shl x y => packNibbles 0x8#4 (nibbleOf x) (nibbleOf y) 0xE#4
  | .sneReg x y => packNibbles 0x9#4 (nibbleOf x) (nibbleOf y) 0x0#4
  | .ldI nnn => packAddr 0xA#4 nnn
  | .jpV0 nnn => packAddr 0xB#4 nnn
  | .rnd x kk => packByte 0xC#4 (nibbleOf x) kk
  | .drw x y height => packNibbles 0xD#4 (nibbleOf x) (nibbleOf y) (nibbleOfNat height)
  | .skp x => packByte 0xE#4 (nibbleOf x) 0x9E#8
  | .sknp x => packByte 0xE#4 (nibbleOf x) 0xA1#8
  | .ldVxDt x => packByte 0xF#4 (nibbleOf x) 0x07#8
  | .ldVxK x => packByte 0xF#4 (nibbleOf x) 0x0A#8
  | .ldDtVx x => packByte 0xF#4 (nibbleOf x) 0x15#8
  | .ldStVx x => packByte 0xF#4 (nibbleOf x) 0x18#8
  | .addI x => packByte 0xF#4 (nibbleOf x) 0x1E#8
  | .ldF x => packByte 0xF#4 (nibbleOf x) 0x29#8
  | .ldB x => packByte 0xF#4 (nibbleOf x) 0x33#8
  | .stRegs count => packByte 0xF#4 (nibbleOfNat count) 0x55#8
  | .ldRegs count => packByte 0xF#4 (nibbleOfNat count) 0x65#8

/-- The high and the low byte of a word, as they lie in MEM, first byte first (R53). -/
def bytesOfWord (w : Word) : List Byte := [w.extractLsb' 8 8, w.extractLsb' 0 8]

/-- An instruction as it lies in MEM. -/
def encodeBytes (i : Instr) : List Byte := bytesOfWord (encode i)

/-! ## The host's question -/

/-- The word whose lowest `nbits` bits are those of `w` and whose other bits are 0; every instruction is one 16-bit
word (R70). -/
def tableWord (nbits w : Nat) : Word := BitVec.ofNat 16 (w % 2 ^ nbits)

/-- What the decoder reads from the instruction whose bits are `w`, laid out in bytes as the hardware stores them. -/
def decodeTableWord (nbits w : Nat) : Option Instr :=
  match decodeBytes (bytesOfWord (tableWord nbits w)) with
  | .ok (i, _) => some i
  | .error _ => none

end Sys2Proof
end

