-- ==== Sys2Proof/Config.lean ====
section
/-! DEFINITION. What stands outside the state and is left free by the spec: the random byte (spec/00_scope.md R12,
spec/41_regfile_alu.md R123, decision D17). The two OPEN parameters that the spec gives a default, FONT and
TICK_PER_CYCLE, stand in Sys2Proof/Machine/Params.lean. -/

namespace Sys2Proof

/-- `draw8()` (R12): the k-th random byte, a FREE VALUE. The constant has no body, so nothing can be proved about
any of its values and two uses are unrelated. The state counts the uses (State.draws). Log entry 1. Safe. -/
opaque Config.draw8 : Nat → Byte

end Sys2Proof
end

