-- ==== Sys2Proof/Machine/Params.lean ====
section
/-! DEFINITION. The two OPEN parameters of spec/00_scope.md R5, each with the default the spec gives: FONT
(spec/10_state.md R37, decision D4) and TICK_PER_CYCLE (spec/45_timers.md R189, decision D16). -/

namespace Sys2Proof.Machine

/-- A value of the parameter FONT (R37): 16 glyphs of 5 bytes, byte `k` of glyph `d` being byte 5d + k of the table. -/
abbrev Font := Vector (Vector Byte 5) 16

/-- The default of FONT (R37). PRESUMED: the spec supplies the bytes from general knowledge (G1) and calls them a default.
Only State.reset takes it; State.resetWith takes any FONT. Log entry 2. Unsafe. -/
def defaultFont : Font := #v[
  #v[0xF0#8, 0x90#8, 0x90#8, 0x90#8, 0xF0#8], #v[0x20#8, 0x60#8, 0x20#8, 0x20#8, 0x70#8],
  #v[0xF0#8, 0x10#8, 0xF0#8, 0x80#8, 0xF0#8], #v[0xF0#8, 0x10#8, 0xF0#8, 0x10#8, 0xF0#8],
  #v[0x90#8, 0x90#8, 0xF0#8, 0x10#8, 0x10#8], #v[0xF0#8, 0x80#8, 0xF0#8, 0x10#8, 0xF0#8],
  #v[0xF0#8, 0x80#8, 0xF0#8, 0x90#8, 0xF0#8], #v[0xF0#8, 0x10#8, 0x20#8, 0x40#8, 0x40#8],
  #v[0xF0#8, 0x90#8, 0xF0#8, 0x90#8, 0xF0#8], #v[0xF0#8, 0x90#8, 0xF0#8, 0x10#8, 0xF0#8],
  #v[0xF0#8, 0x90#8, 0xF0#8, 0x90#8, 0x90#8], #v[0xE0#8, 0x90#8, 0xE0#8, 0x90#8, 0xE0#8],
  #v[0xF0#8, 0x80#8, 0x80#8, 0x80#8, 0xF0#8], #v[0xE0#8, 0x90#8, 0x90#8, 0x90#8, 0xE0#8],
  #v[0xF0#8, 0x80#8, 0xF0#8, 0x80#8, 0xF0#8], #v[0xF0#8, 0x80#8, 0xF0#8, 0x80#8, 0x80#8]]

/-- TICK_PER_CYCLE (R189) at the document's behaviour: every cycle that does not fault ends with one timer tick. The
cycle itself takes the parameter as an argument (cycleWith in Machine/Cycle.lean). Log entry 5. -/
def tickPerCycle : Bool := true

end Sys2Proof.Machine
end

