-- ==== Sys2Proof/Machine/State.lean ====
section
/-! DEFINITION. The machine state (spec/10_state.md R20), the fatal conditions (spec/60_exceptions.md R210), the
refusals, and the state after reset (R36, R240). -/

namespace Sys2Proof.Machine

/-- The fatal conditions of R210 with the information each records. A cycle that raises one records it in HALT and is
otherwise without effect (R214): the step answers a next state whose `halt` holds it. A further step of the halted machine
answers it as a fault (R98). Safe: nothing runs on. -/
inductive Fault where
  /-- Code 1. Raised by the host operation LoadProgram for more than 3584 bytes (R211); no cycle raises it. Safe. -/
  | loadOverflow (length : Nat)
  /-- Code 2. Raised by `2nnn` when SP = 16 (R212); records the pc of the call. Safe. -/
  | stackOverflow (pc : Word)
  /-- Code 3. Raised by `00EE` when SP = 0 (R213); records the pc of the return. Safe. -/
  | stackUnderflow (pc : Word)
  /-- Code 4. Raised by the dispatcher for a word that matches no row (R216); records the word and its address. Safe. -/
  | unrecognizedInstruction (w : Word) (pc : Word)
  /-- Code 5. Raised by nothing: rows past row 31 are dropped (R175, R217, decision D8). Safe. -/
  | outOfBoundsDraw
  /-- Code 6. Raised by the fetch when pc + 1 > 0xFFF (R218); records the pc. Safe. -/
  | fetchOutOfBounds (pc : Word)
  /-- Code 7. Raised by `Dxyn`, `Fx33`, `Fx55`, `Fx65` when the last address of the range exceeds 0xFFF (R219); records
  the first address and the byte count. Safe. -/
  | memoryOutOfBounds (first : Word) (count : Nat)
  /-- Code 8. Raised by `Ex9E`, `ExA1` when V[x] > 15 (R220); records V[x]. Safe. -/
  | keyIndexOutOfRange (value : Byte)
deriving DecidableEq, Repr

/-- What the model does not answer. No instruction and no cycle ends in a refusal. -/
inductive Refusal where
  /-- An instruction that has no meaning yet; raised by exec's arms only. No arm raises it. Safe. -/
  | notModelled (mnemonic : String)
  /-- Raised by the host operation SetKey for an index above 15, which is outside the interface (R195, U17). Safe. -/
  | keyOutsideInterface (k : Nat)
  /-- Raised by the host operation TimerTick when TICK_PER_CYCLE is true: the operation does not exist then (R228). Safe. -/
  | noTickOperation
deriving DecidableEq, Repr

/-- MEM (R31): the bytes that differ from their reset content, as (address, byte) pairs in the canonical form that
Memory.wf states (Machine/Ops.lean). -/
abbrev Memory := List Host.Cell

/-- The framebuffer (R30): 32 rows of 64 one-bit cells. Bit `c` of row `r` is the cell `FB[r][c]`, `true` lit. -/
abbrev Framebuffer := Vector (BitVec 64) 32

/-- The state of R20, one field per row of its table, and two fields of the model's own: `draws`, and `font`, the machine's
value of the parameter FONT, which is no state of the spec's (R33(d)) and which nothing writes. -/
structure State where
  /-- MEM (R31). -/
  mem : Memory
  /-- V[0] to V[15]; V[15] is the flag register (R21, R22). -/
  v : Vector Byte 16
  /-- I, the index register (R23). -/
  i : Word
  /-- pc (R24). -/
  pc : Word
  /-- SP, the number of stack entries in use, 0 to 16 (R25). -/
  sp : Fin 17
  /-- STACK (R26). -/
  stack : Vector Word 16
  /-- DT, the delay timer (R27). -/
  dt : Byte
  /-- ST, the sound timer (R28). -/
  st : Byte
  /-- K, the key flags, `true` pressed (R29). -/
  keys : Vector Bool 16
  /-- FB (R30). -/
  fb : Framebuffer
  /-- HALT (R32): none, or the fatal condition that halted the machine. -/
  halt : Option Fault
  /-- The model's own: how many random bytes `Cxkk` has drawn; it selects the next free value (log entry 1). -/
  draws : Nat
  /-- The model's own: the parameter FONT of this machine (R5, R37), carried so that reset and memory can take it; no
  operation writes it (log entry 2). -/
  font : Font
deriving DecidableEq, Repr

/-- The state after reset (R36, R240) of a machine whose FONT is `f`: the font and zeros in MEM are what an unlisted
address reads as, so nothing is listed. The zeros are the spec's decision D3 (log entry 4). -/
def State.resetWith (f : Font) : State where
  mem := []
  v := Vector.replicate 16 0#8
  i := 0x0000#16
  pc := 0x0200#16
  sp := 0
  stack := Vector.replicate 16 0x0000#16
  dt := 0#8
  st := 0#8
  keys := Vector.replicate 16 false
  fb := Vector.replicate 32 0#64
  halt := none
  draws := 0
  font := f

/-- The state after reset at the default of FONT (log entry 2). -/
def State.reset : State := State.resetWith defaultFont

end Sys2Proof.Machine
end

