-- ==== Sys2Proof/Machine/Ops.lean ====
section
/-! DEFINITION. The named operations over memory, registers, the program counter and the timers, and taking a fatal
condition (spec/10_state.md, spec/20_memory.md, spec/40_cycle_dispatch.md R94 to R97, spec/60_exceptions.md R214). -/

namespace Sys2Proof.Machine

/-- What an instruction, a cycle or a host operation answers. -/
abbrev Outcome := Host.Outcome State Fault Refusal

/-! ## Memory -/

/-- Byte `a` of the font table (R37). -/
def fontByte (f : Font) (a : Nat) (h : a < 80) : Byte := (f[a / 5]'(by omega))[a % 5]'(by omega)

/-- What an address that memory does not list reads as: its reset content (R36, R56): FONT at 0x000 to 0x04F, 0x00 above
it. -/
def Memory.background (f : Font) (a : Nat) : Byte := if h : a < 80 then fontByte f a h else 0x00#8

/-- The listed byte at `a`, if any. -/
def Memory.find (a : Nat) : Memory → Option Byte
  | [] => none
  | (b, w) :: m => if a = b then some w else Memory.find a m

/-- Lists `v` at `a`, before the first listed address above `a`. -/
def Memory.put (a : Nat) (v : Byte) : Memory → Memory
  | [] => [(a, v)]
  | (b, w) :: m => if a < b then (a, v) :: (b, w) :: m else if a = b then (a, v) :: m else (b, w) :: Memory.put a v m

/-- Lists nothing at `a`. -/
def Memory.drop (a : Nat) (m : Memory) : Memory := m.filter fun p => p.1 ≠ a

/-- `MemRead(a, 1)` (R52). Every instruction checks its range before it reads; above 0xFFF the value has no meaning. -/
def Memory.read (f : Font) (m : Memory) (a : Nat) : Byte := (Memory.find a m).getD (Memory.background f a)

/-- `MemWrite(a, 1, v)` (R52), keeping the canonical form: a byte equal to the background is not listed. Every
instruction checks its range before it writes; above 0xFFF there is no byte and nothing is written. -/
def Memory.write (f : Font) (m : Memory) (a : Nat) (v : Byte) : Memory :=
  if a ≤ 0xFFF then
    if v = Memory.background f a then Memory.drop a m else Memory.put a v m
  else m

/-- The canonical form: addresses strictly rising, all in 0x000 to 0xFFF, and no entry equal to the background. -/
abbrev Memory.wf (f : Font) (m : Memory) : Prop :=
  m.Pairwise (fun p q => p.1 < q.1) ∧ ∀ p ∈ m, p.1 ≤ 0xFFF ∧ p.2 ≠ Memory.background f p.1

/-- Writes consecutive bytes from address `a` upward, in ascending order (R55). -/
def Memory.writeBytes (f : Font) (m : Memory) (a : Nat) : List Byte → Memory
  | [] => m
  | v :: vs => Memory.writeBytes f (Memory.write f m a v) (a + 1) vs

/-- Reads `count` consecutive bytes from address `a` upward, in ascending order (R55). -/
def Memory.readBytes (f : Font) (m : Memory) (a : Nat) : Nat → List Byte
  | 0 => []
  | count + 1 => Memory.read f m a :: Memory.readBytes f m (a + 1) count

/-- One byte of MEM (R52). -/
def State.read (s : State) (a : Nat) : Byte := s.mem.read s.font a

/-- `count` bytes of MEM from address `a` upward (R55). -/
def State.readBytes (s : State) (a count : Nat) : List Byte := s.mem.readBytes s.font a count

/-- `s` with bytes stored to MEM from address `a` upward (R55). -/
def State.writeBytes (s : State) (a : Nat) (bs : List Byte) : State := { s with mem := s.mem.writeBytes s.font a bs }

/-! ## Registers -/

/-- V[x] (R21). -/
def State.getV (s : State) (x : Reg) : Byte := s.v[x]

/-- `V[x] <- b` (R21): no register is hardwired. -/
def State.setV (s : State) (x : Reg) (b : Byte) : State := { s with v := s.v.set x.val b x.isLt }

/-- `I <- w` (R23). -/
def State.setI (s : State) (w : Word) : State := { s with i := w }

/-- The number of the flag register V[0xF] (R22). -/
def flagReg : Reg := 0xF

/-! ## The program counter -/

/-- `Advance(p)` (R94), on an unbounded `p`: two bytes on, or the program start address when that is not an address of
MEM (decision D11). -/
def advance (p : Nat) : Word := if p + 2 ≤ 0xFFF then BitVec.ofNat 16 (p + 2) else 0x0200#16

/-- The four outcomes of Execute (R11, R95). -/
inductive PcOutcome where
  | next
  | skip
  | jump (target : Word)
  | stall
deriving DecidableEq, Repr

/-- `NewPc(pc, outcome)` (R96). -/
def newPc (pc : Word) : PcOutcome → Word
  | .next => advance pc.toNat
  | .skip => advance (pc.toNat + 2)
  | .jump target => target
  | .stall => pc

/-- The end of an instruction that raises nothing: the counter update of R96. -/
def State.complete (s : State) (o : PcOutcome) : Outcome := .next { s with pc := newPc s.pc o }

/-! ## Taking a fatal condition, and what ends it -/

/-- `raise f` (R10, R214): HALT records the condition and nothing else changes; pc still addresses the faulting
instruction and there is no tick (the cycle ticks only a state whose HALT is none). There is no handler, no saved state
and no return from a fault (R223): only `resetOp` clears HALT (R215). -/
def State.raise (s : State) (f : Fault) : Outcome := .next { s with halt := some f }

/-- `Reset()` (R240): every element of the spec's state to its reset value, MEM from this machine's FONT. The model's own count of random bytes goes
on, so that bytes drawn after a reset are unrelated to those drawn before (R12; log entry 1). -/
def State.resetOp (s : State) : State := { State.resetWith s.font with draws := s.draws }

/-! ## Timers -/

/-- A timer decremented toward zero, never below (R27, R185). -/
def tickDown (t : Byte) : Byte := if t = 0#8 then 0#8 else t - 1#8

/-- `TimerTick()` (R185). -/
def State.timerTick (s : State) : State := { s with dt := tickDown s.dt, st := tickDown s.st }

/-- The end of a cycle (R97, R99): one tick when TICK_PER_CYCLE holds and the instruction has raised nothing. -/
def State.endCycle (tick : Bool) (s : State) : State :=
  match s.halt with
  | some _ => s
  | none => if tick then s.timerTick else s

/-- `f` on the next state of an outcome. -/
def mapNext (f : State → State) : Outcome → Outcome
  | .next s => .next (f s)
  | .fault r => .fault r
  | .refused r => .refused r

end Sys2Proof.Machine
end

