-- ==== Sys2Proof/Machine/Operands.lean ====
section
/-! DEFINITION. The operand forms of the instruction set (spec/30_encoding.md R72, spec/43_index_and_memory.md R150,
R153, R154, spec/44_sprite.md R170, R173, spec/46_keyboard.md R196, R198). -/

namespace Sys2Proof.Machine

/-- A 12-bit immediate zero-extended to 16 bits (R72). -/
def addrOf (nnn : BitVec 12) : Word := nnn.setWidth 16

/-- An 8-bit register value zero-extended to 16 bits (R134, R152). -/
def zext16 (b : Byte) : Word := b.setWidth 16

/-- Whether the `count` bytes from address `first` all lie in MEM (R52, R150): an empty range always does. -/
def rangeInMem (first : Word) (count : Nat) : Bool := count = 0 || first.toNat + count - 1 ≤ 0xFFF

/-- The bounds check of an instruction that accesses `count` bytes at I (R52): it covers the whole range and comes before
the first write; `body` is what the instruction does when the range is in MEM. -/
def State.withRange (s : State) (count : Nat) (body : Outcome) : Outcome :=
  if rangeInMem s.i count then body else s.raise (.memoryOutOfBounds s.i count)

/-- The address of the glyph of digit `a` (R153): `a * 5`, `a` not masked (decision D20). -/
def glyphAddr (a : Byte) : Word := zext16 a * 5#16

/-- The three decimal digits of `a`, hundreds first (R154). -/
def decimalDigits (a : Byte) : List Byte :=
  [BitVec.ofNat 8 (a.toNat / 100), BitVec.ofNat 8 (a.toNat / 10 % 10), BitVec.ofNat 8 (a.toNat % 10)]

/-- The key check of `Ex9E` and `ExA1` (R196, R197): an index above 15 raises KeyIndexOutOfRange (decision D7); else
`body` gets the flag of key V[x]. -/
def State.withKey (s : State) (index : Byte) (body : Bool → Outcome) : Outcome :=
  if h : index.toNat < 16 then body (s.keys[index.toNat]'h) else s.raise (.keyIndexOutOfRange index)

/-- The lowest-indexed pressed key, if any is pressed (R198). -/
def lowestKey (keys : Vector Bool 16) : Option (Fin 16) := (List.finRange 16).find? fun k => keys[k]

/-- The 64 cells that a sprite row byte covers from origin column `ox` (R172, R173): bit `b` from the most significant
end stands at column `(ox + b) mod 64`. -/
def spriteMask (ox : Nat) (row : Byte) : BitVec 64 :=
  (List.range 8).foldl
    (fun m b => if row.getLsbD (7 - b) then m ||| (1#64 <<< ((ox + b) % 64)) else m) 0#64

end Sys2Proof.Machine
end

