-- ==== Sys2Proof/Machine/Flags.lean ====
section
/-! DEFINITION. The values that go to V[0xF] and the order of the two writes of a flag-writing instruction
(spec/10_state.md R22, spec/41_regfile_alu.md R110, R117 to R121, R124, spec/44_sprite.md R174). -/

namespace Sys2Proof.Machine

/-- A flag as the byte written to V[0xF]: 1 or 0 (R22). -/
def flagByte (b : Bool) : Byte := if b then 1#8 else 0#8

/-- The carry of `8xy4` (R117): the unmodulated sum exceeds 255. -/
def carry (a b : Byte) : Bool := a.toNat + b.toNat > 255

/-- The no-borrow flag of a subtraction `a - b` (R118, R120): `a >= b`. -/
def noBorrow (a b : Byte) : Bool := a.toNat ≥ b.toNat

/-- The bit `8xy6` shifts out (R119): bit 0. -/
def lowBit (a : Byte) : Bool := a.getLsbD 0

/-- The bit `8xyE` shifts out (R121): bit 7. -/
def highBit (a : Byte) : Bool := a.getLsbD 7

/-- Whether XORing `mask` over the cells `row` turns a lit cell dark (R174). -/
def collides (row mask : BitVec 64) : Bool := row &&& mask ≠ 0#64

/-- The write order of `8xy4`, `8xy5`, `8xy7` (R110): the result, then the flag, which stays when `x` is 0xF. -/
def State.resultThenFlag (s : State) (x : Reg) (result : Byte) (flag : Bool) : State :=
  (s.setV x result).setV flagReg (flagByte flag)

/-- The write order of `8xy6`, `8xyE` (R110): the flag, then the result, which stays when `x` is 0xF (decision D10). -/
def State.flagThenResult (s : State) (x : Reg) (result : Byte) (flag : Bool) : State :=
  (s.setV flagReg (flagByte flag)).setV x result

end Sys2Proof.Machine
end

