-- ==== Sys2Proof/Machine/Alu.lean ====
section
/-! DEFINITION. The register file and ALU instructions (spec/41_regfile_alu.md): none can raise, each ends in `next`.
Every rule samples its source registers before it writes (R110). -/

namespace Sys2Proof.Machine

/-- `6xkk` (R111): `V[x] <- kk`. -/
def execLdImm (x : Reg) (kk : Byte) (s : State) : Outcome := (s.setV x kk).complete .next

/-- `7xkk` (R112): `V[x] <- V[x] + kk` modulo 256; no flag. -/
def execAddImm (x : Reg) (kk : Byte) (s : State) : Outcome := (s.setV x (s.getV x + kk)).complete .next

/-- `8xy0` (R113): `V[x] <- V[y]`. -/
def execLdReg (x y : Reg) (s : State) : Outcome := (s.setV x (s.getV y)).complete .next

/-- `8xy1` (R114): bitwise OR; V[0xF] is not reset. -/
def execOr (x y : Reg) (s : State) : Outcome := (s.setV x (s.getV x ||| s.getV y)).complete .next

/-- `8xy2` (R115): bitwise AND. -/
def execAnd (x y : Reg) (s : State) : Outcome := (s.setV x (s.getV x &&& s.getV y)).complete .next

/-- `8xy3` (R116): bitwise XOR. -/
def execXor (x y : Reg) (s : State) : Outcome := (s.setV x (s.getV x ^^^ s.getV y)).complete .next

/-- `8xy4` (R117): the sum modulo 256, then the carry. -/
def execAddReg (x y : Reg) (s : State) : Outcome :=
  let a := s.getV x
  let b := s.getV y
  (s.resultThenFlag x (a + b) (carry a b)).complete .next

/-- `8xy5` (R118): `V[x] - V[y]` modulo 256, then no-borrow. -/
def execSub (x y : Reg) (s : State) : Outcome :=
  let a := s.getV x
  let b := s.getV y
  (s.resultThenFlag x (a - b) (noBorrow a b)).complete .next

/-- `8xy6` (R119): bit 0 to the flag, then the logical shift right by one; `y` is ignored. -/
def execShr (x _y : Reg) (s : State) : Outcome :=
  let a := s.getV x
  (s.flagThenResult x (a >>> 1) (lowBit a)).complete .next

/-- `8xy7` (R120): `V[y] - V[x]` modulo 256, then no-borrow. -/
def execSubn (x y : Reg) (s : State) : Outcome :=
  let a := s.getV x
  let b := s.getV y
  (s.resultThenFlag x (b - a) (noBorrow b a)).complete .next

/-- `8xyE` (R121): bit 7 to the flag, then the shift left by one; `y` is ignored. -/
def execShl (x _y : Reg) (s : State) : Outcome :=
  let a := s.getV x
  (s.flagThenResult x (a <<< 1) (highBit a)).complete .next

/-- `Cxkk` (R123): a fresh free byte AND `kk`; the count of drawn bytes advances (log entry 1). -/
def execRnd (x : Reg) (kk : Byte) (s : State) : Outcome :=
  ({ s.setV x (Config.draw8 s.draws &&& kk) with draws := s.draws + 1 }).complete .next

end Sys2Proof.Machine
end

