-- ==== Sys2Proof/Machine/Flow.lean ====
section
/-! DEFINITION. The program counter and call stack instructions (spec/42_pc_and_stack.md): jumps, call, return and the
four register skips. A target is not checked when the transfer executes (R130). -/

namespace Sys2Proof.Machine

/-- `skip` when the condition holds, else `next` (R95, R130). -/
def State.skipIf (s : State) (cond : Bool) : Outcome := s.complete (if cond then .skip else .next)

/-- `1nnn` (R131). -/
def execJp (nnn : BitVec 12) (s : State) : Outcome := s.complete (.jump (addrOf nnn))

/-- `2nnn` (R132): pushes the return address Advance(pc) (conflict C1, decision D13); StackOverflow when SP = 16. -/
def execCall (nnn : BitVec 12) (s : State) : Outcome :=
  if h : s.sp.val < 16 then
    ({ s with
        stack := s.stack.set s.sp.val (advance s.pc.toNat) h
        sp := ⟨s.sp.val + 1, by omega⟩ }).complete (.jump (addrOf nnn))
  else s.raise (.stackOverflow s.pc)

/-- `00EE` (R133): pops into pc, keeping the entry (R26, decision D24); StackUnderflow when SP = 0. -/
def execRet (s : State) : Outcome :=
  if h : 0 < s.sp.val then
    ({ s with sp := ⟨s.sp.val - 1, by omega⟩ }).complete (.jump (s.stack[s.sp.val - 1]'(by omega)))
  else s.raise (.stackUnderflow s.pc)

/-- `Bnnn` (R134): V[0] + nnn, not reduced to 12 bits; 16 bits hold every sum. -/
def execJpV0 (nnn : BitVec 12) (s : State) : Outcome := s.complete (.jump (addrOf nnn + zext16 (s.getV 0)))

/-- `3xkk` (R135). -/
def execSeImm (x : Reg) (kk : Byte) (s : State) : Outcome := s.skipIf (s.getV x = kk)

/-- `4xkk` (R136). -/
def execSneImm (x : Reg) (kk : Byte) (s : State) : Outcome := s.skipIf (s.getV x ≠ kk)

/-- `5xy_` (R137). -/
def execSeReg (x y : Reg) (s : State) : Outcome := s.skipIf (s.getV x = s.getV y)

/-- `9xy_` (R138). -/
def execSneReg (x y : Reg) (s : State) : Outcome := s.skipIf (s.getV x ≠ s.getV y)

end Sys2Proof.Machine
end

