-- ==== Sys2Proof/Machine/IndexMemory.lean ====
section
/-! DEFINITION. The index register and memory transfer instructions (spec/43_index_and_memory.md). Each ends in `next`;
none changes I but `Annn`, `Fx1E`, `Fx29`; the bounds check covers the whole range and comes first (R150). -/

namespace Sys2Proof.Machine

/-- `Annn` (R151). -/
def execLdI (nnn : BitVec 12) (s : State) : Outcome := (s.setI (addrOf nnn)).complete .next

/-- `Fx1E` (R152): the sum modulo 65536, no flag (decision D20). -/
def execAddI (x : Reg) (s : State) : Outcome := (s.setI (s.i + zext16 (s.getV x))).complete .next

/-- `Fx29` (R153). -/
def execLdF (x : Reg) (s : State) : Outcome := (s.setI (glyphAddr (s.getV x))).complete .next

/-- `Fx33` (R154): the decimal digits of V[x] to MEM[I], MEM[I + 1], MEM[I + 2]. -/
def execLdB (x : Reg) (s : State) : Outcome :=
  s.withRange 3
    ((s.writeBytes s.i.toNat (decimalDigits (s.getV x))).complete .next)

/-- `Fx55` (R155): V[0] to V[count - 1] to the `count` bytes from I. -/
def execStRegs (count : Nat) (s : State) : Outcome :=
  s.withRange count
    ((s.writeBytes s.i.toNat (s.v.toList.take count)).complete .next)

/-- Registers V[k], V[k + 1], ... from consecutive bytes; a byte past V[15] goes nowhere (no encoding has one). -/
def loadRegs (v : Vector Byte 16) (k : Nat) : List Byte → Vector Byte 16
  | [] => v
  | b :: bs => loadRegs (if h : k < 16 then v.set k b h else v) (k + 1) bs

/-- `Fx65` (R156): V[0] to V[count - 1] from the `count` bytes from I. -/
def execLdRegs (count : Nat) (s : State) : Outcome :=
  s.withRange count
    (({ s with v := loadRegs s.v 0 (s.readBytes s.i.toNat count) }).complete .next)

end Sys2Proof.Machine
end

