-- ==== Sys2Proof/Machine/Keyboard.lean ====
section
/-! DEFINITION. The key skips and the key wait (spec/46_keyboard.md). No instruction writes K (R195). -/

namespace Sys2Proof.Machine

/-- `Ex9E` (R196). -/
def execSkp (x : Reg) (s : State) : Outcome := s.withKey (s.getV x) fun pressed => s.skipIf pressed

/-- `ExA1` (R197). -/
def execSknp (x : Reg) (s : State) : Outcome := s.withKey (s.getV x) fun pressed => s.skipIf (!pressed)

/-- `Fx0A` (R198): stalls, writing nothing, while no key is pressed; else takes the lowest-indexed pressed key. -/
def execLdVxK (x : Reg) (s : State) : Outcome :=
  match lowestKey s.keys with
  | none => s.complete .stall
  | some k => (s.setV x (BitVec.ofNat 8 k.val)).complete .next

end Sys2Proof.Machine
end

