-- ==== Sys2Proof/Machine/Sprite.lean ====
section
/-! DEFINITION. The framebuffer and the XOR sprite compositor (spec/44_sprite.md): `00E0` and `Dxyn`. -/

namespace Sys2Proof.Machine

/-- The cell `FB[r][c]` (R30), dark outside the grid. -/
def cell (fb : Framebuffer) (r c : Nat) : Bool := if h : r < 32 then fb[r].getLsbD c else false

/-- Every cell dark (R171). -/
def darkFb : Framebuffer := Vector.replicate 32 0#64

/-- One sprite row XORed over row `r` (R172), with the collision seen so far; a row past 31 is dropped (R175, decision
D8). -/
def drawRow (ox r : Nat) (row : Byte) (p : Framebuffer × Bool) : Framebuffer × Bool :=
  if h : r < 32 then
    let mask := spriteMask ox row
    (p.1.set r (p.1[r] ^^^ mask) h, p.2 || collides p.1[r] mask)
  else p

/-- The sprite rows in ascending order, from framebuffer row `r` down the screen (R172); `r` is not reduced modulo 32
(R175). -/
def drawRows (ox r : Nat) : List Byte → Framebuffer × Bool → Framebuffer × Bool
  | [], p => p
  | row :: rows, p => drawRows ox (r + 1) rows (drawRow ox r row p)

/-- `00E0` (R171): V[0xF] is not written. -/
def execCls (s : State) : Outcome := ({ s with fb := darkFb }).complete .next

/-- `Dxyn` (R172): origin sampled first, the collision flag written last, MemoryOutOfBounds before any write. -/
def execDrw (x y : Reg) (height : Nat) (s : State) : Outcome :=
  s.withRange height
    (let drawn := drawRows (s.getV x).toNat (s.getV y).toNat (s.readBytes s.i.toNat height) (s.fb, false)
     (({ s with fb := drawn.1 }).setV flagReg (flagByte drawn.2)).complete .next)

end Sys2Proof.Machine
end

