-- ==== Sys2Proof/Machine/Timers.lean ====
section
/-! DEFINITION. The timer instructions (spec/45_timers.md). Each reads or writes the timer before this cycle's tick, which
the cycle makes afterwards (R189). -/

namespace Sys2Proof.Machine

/-- `Fx07` (R186). -/
def execLdVxDt (x : Reg) (s : State) : Outcome := (s.setV x s.dt).complete .next

/-- `Fx15` (R187). -/
def execLdDtVx (x : Reg) (s : State) : Outcome := ({ s with dt := s.getV x }).complete .next

/-- `Fx18` (R188): no sound is produced. -/
def execLdStVx (x : Reg) (s : State) : Outcome := ({ s with st := s.getV x }).complete .next

end Sys2Proof.Machine
end

