-- ==== Sys2Proof/Machine/Cycle.lean ====
section
/-! DEFINITION. The cycle (spec/40_cycle_dispatch.md R90 to R99): fetch, decode, execute, counter update, timer tick. -/

namespace Sys2Proof.Machine

/-- The fetch (R91): the word at pc, high byte first, or none when `pc + 1 > 0xFFF`. -/
def fetch (s : State) : Option Word :=
  if s.pc.toNat + 1 ≤ 0xFFF then
    some (wordOfBytes (s.read s.pc.toNat) (s.read (s.pc.toNat + 1)))
  else none

/-- Decode and execute a fetched word (R92, R93): an unrecognised word raises UnrecognizedInstruction (R216). -/
def executeWord (w : Word) (s : State) : Outcome :=
  match decodeWord w with
  | some i => exec i s
  | none => s.raise (.unrecognizedInstruction w s.pc)

/-- `Cycle()` (R90) with TICK_PER_CYCLE as an argument; the order of checks is R221's. A halted machine changes nothing and
answers the recorded fault again (R98); a cycle that raises answers the state with HALT set (R214). -/
def cycleWith (tick : Bool) (s : State) : Outcome :=
  match s.halt with
  | some f => .fault f
  | none =>
    match fetch s with
    | none => s.raise (.fetchOutOfBounds s.pc)
    | some w => mapNext (State.endCycle tick) (executeWord w s)

/-- `Cycle()` at the default of TICK_PER_CYCLE (R189). -/
def cycle (s : State) : Outcome := cycleWith tickPerCycle s

/-- `s` with the word `w` stored at pc as the hardware stores it (R53), for the host's question. -/
def State.placeWord (s : State) (w : Word) : State := s.writeBytes s.pc.toNat (bytesOfWord w)

end Sys2Proof.Machine
end

