-- ==== Sys2Proof/Machine/Step.lean ====
section
/-! DEFINITION. One step of the machine: one invoked cycle (spec/40_cycle_dispatch.md R90), at the default of
TICK_PER_CYCLE; and the placing of an instruction for the host's question. -/

namespace Sys2Proof.Machine

/-- One cycle (R90). -/
def step : State → Host.Outcome State Fault Refusal := cycle

/-- `s` with the instruction whose lowest `nbits` bits are those of `w` stored where the next fetch reads: at pc. It
stands for a LoadProgram (R243) when pc is 0x200. Log entry 7. -/
def State.withFetchWord (s : State) (nbits w : Nat) : State := s.placeWord (tableWord nbits w)

end Sys2Proof.Machine
end

