-- ==== Sys2Proof/Machine/HostOps.lean ====
section
/-! DEFINITION. The host interface (spec/60_exceptions.md R228): what the external driver can do between cycles, and what
each operation reports. The fields of a state are what the host reads (R227, R228). -/

namespace Sys2Proof.Machine

/-- `LoadProgram(bytes)` (R243): the bytes to MEM from 0x200 upward and nothing else; more than 3584 is LoadOverflow, with
nothing modified (R211). -/
def loadProgram (bytes : List Byte) (s : State) : Outcome :=
  if bytes.length ≤ 3584 then .next (s.writeBytes 0x200 bytes)
  else .fault (.loadOverflow bytes.length)

/-- `SetKey(k, b)` (R195): an index above 15 is outside the interface and refused (log entry 8). -/
def setKey (k : Nat) (b : Bool) (s : State) : Outcome :=
  if h : k < 16 then .next { s with keys := s.keys.set k b h } else .refused (.keyOutsideInterface k)

/-- `TimerTick()` as a host operation (R189): it exists only when TICK_PER_CYCLE is false. -/
def hostTimerTick (tick : Bool) (s : State) : Outcome := if tick then .refused .noTickOperation else .next s.timerTick

/-- The framebuffer cell the host reads (R227): `true` lit, dark outside the grid. -/
def readCell (r c : Nat) (s : State) : Bool := cell s.fb r c

/-- The byte of MEM the host reads (R59). -/
def readByte (a : Nat) (s : State) : Byte := s.read a

/-- The operations of R228 that can change the state. -/
inductive HostOp where
  | reset
  | loadProgram (bytes : List Byte)
  | cycle
  | setKey (k : Nat) (b : Bool)
  | timerTick
deriving DecidableEq, Repr

/-- What an operation reports to the host (R228): `ok`, a fault that is surfaced (R214(d)), or a refusal by name. -/
inductive HostResult where
  | ok
  | failed (f : Fault)
  | refused (r : Refusal)
deriving DecidableEq, Repr

/-- The state after an operation and its report: a fault or a refusal leaves the state as it was (R98, R211). -/
def reportOf (s : State) : Outcome → State × HostResult
  | .next t => (t, .ok)
  | .fault f => (s, .failed f)
  | .refused r => (s, .refused r)

/-- The report of a cycle: the fault when the cycle ends with HALT set, whether it raised it or found it (R98, R214). -/
def reportCycle (s : State) : Outcome → State × HostResult
  | .next t =>
    match t.halt with
    | none => (t, .ok)
    | some f => (t, .failed f)
  | o => reportOf s o

/-- One host operation (R228) under a value of TICK_PER_CYCLE. -/
def hostStep (tick : Bool) (op : HostOp) (s : State) : State × HostResult :=
  match op with
  | .reset => (s.resetOp, .ok)
  | .loadProgram bytes => reportOf s (loadProgram bytes s)
  | .cycle => reportCycle s (cycleWith tick s)
  | .setKey k b => reportOf s (setKey k b s)
  | .timerTick => reportOf s (hostTimerTick tick s)

end Sys2Proof.Machine
end

