-- ==== Sys2Proof/Safety.lean ====
section
/-! DEFINITION. What counts as a safe state, the invariant of every state (spec/10_state.md R35), and the terms the
statements use: fields of a word as arithmetic, the encoding of a row, the cells a sprite lights. -/

namespace Sys2Proof

/-! ## Fields of a word, as arithmetic on its value (R71) -/

/-- Bits 11 to 8 as a register number. -/
def wordX (w : Word) : Reg := ⟨w.toNat / 256 % 16, Nat.mod_lt _ (by decide)⟩

/-- Bits 7 to 4 as a register number. -/
def wordY (w : Word) : Reg := ⟨w.toNat / 16 % 16, Nat.mod_lt _ (by decide)⟩

/-- Bits 3 to 0 as a number. -/
def wordN (w : Word) : Nat := w.toNat % 16

/-- Bits 7 to 0. -/
def wordKk (w : Word) : Byte := BitVec.ofNat 8 (w.toNat % 256)

/-- Bits 11 to 0. -/
def wordNnn (w : Word) : BitVec 12 := BitVec.ofNat 12 (w.toNat % 4096)

/-- Every word that matches `pattern` under `mask` decodes to the instruction that `build` makes of it (R82). -/
def Encodes (mask pattern : Word) (build : Word → Instr) : Prop :=
  ∀ w : Word, w &&& mask = pattern → decodeWord w = some (build w)

/-- The bits of an instruction's word that are neither fixed nor a field of its row (R79). -/
def ignoredBits : Instr → Word
  | .cls => 0x0F00#16
  | .ret => 0x0F00#16
  | .seReg _ _ => 0x000F#16
  | .sneReg _ _ => 0x000F#16
  | _ => 0x0000#16

namespace Machine

/-- A safe state: no fatal condition is recorded (R215). -/
def State.safe (s : State) : Prop := s.halt = none

/-- A return address a call can push (R35(d)): Advance(p) of a fetched p, in 0x002 to 0xFFF. -/
def isReturnAddress (w : Word) : Prop := 2 ≤ w.toNat ∧ w.toNat ≤ 0xFFF

/-- The invariant of R35 that the types do not already carry: the canonical memory, the bound of pc, and the return
addresses in use. -/
structure State.Inv (s : State) : Prop where
  mem_wf : s.mem.wf s.font
  pc_le : s.pc.toNat ≤ 0x10FE
  stack_le : ∀ j : Fin 16, s.stack[j].toNat ≤ 0xFFF
  used_return : ∀ j : Fin 16, j.val < s.sp.val → isReturnAddress s.stack[j]

/-- The word in the two bytes at pc, high byte first (R53), where both lie in MEM. -/
def wordAt (s : State) : Word := BitVec.ofNat 16 ((s.read s.pc.toNat).toNat * 256 + (s.read (s.pc.toNat + 1)).toNat)

/-- The next cycle fetches and selects `i`: the machine is not halted, both bytes at pc lie in MEM, and their word decodes
to `i`. -/
def State.runs (s : State) (i : Instr) : Prop :=
  s.halt = none ∧ s.pc.toNat + 1 ≤ 0xFFF ∧ decodeWord (wordAt s) = some i

/-- Whether a sprite of `height` rows in the memory of `s` at address `base`, drawn at column `ox` and row `oy`, has a 1 bit over
the cell in row `r`, column `c` (R172, R173): row `r - oy` of the sprite, and the bit, counted from the most significant
end, whose column is `c`. -/
def spriteLights (s : State) (base ox oy height r c : Nat) : Prop :=
  oy ≤ r ∧ r < oy + height ∧
    ∃ b : Fin 8, (ox + b.val) % 64 = c ∧ (s.read (base + (r - oy))).getLsbD (7 - b.val) = true

/-! ## What an instruction writes (R22, R38, R51) -/

/-- The number of bytes an instruction stores from address I upward (R51). -/
def storedBytes : Instr → Nat
  | .ldB _ => 3
  | .stRegs count => count
  | _ => 0

/-- The register V[x] an instruction writes as its result (R21); the count form `Fx65` is not among them. -/
def resultReg : Instr → Option Reg
  | .ldImm x _ => some x
  | .addImm x _ => some x
  | .ldReg x _ => some x
  | .or x _ => some x
  | .and x _ => some x
  | .xor x _ => some x
  | .addReg x _ => some x
  | .sub x _ => some x
  | .shr x _ => some x
  | .subn x _ => some x
  | .shl x _ => some x
  | .rnd x _ => some x
  | .ldVxDt x => some x
  | .ldVxK x => some x
  | _ => none

/-- The six instructions that write V[0xF] as a flag (R22). -/
def writesFlag : Instr → Bool
  | .addReg _ _ => true
  | .sub _ _ => true
  | .shr _ _ => true
  | .subn _ _ => true
  | .shl _ _ => true
  | .drw _ _ _ => true
  | _ => false

/-- The instructions that can raise a fatal condition (R221). -/
def canRaise : Instr → Bool
  | .call _ => true
  | .ret => true
  | .skp _ => true
  | .sknp _ => true
  | .ldB _ => true
  | .stRegs _ => true
  | .ldRegs _ => true
  | .drw _ _ _ => true
  | _ => false

/-! ## The counter update in words (R90, R95, R96) -/

/-- The plain part of the counter update: away from the top of MEM pc advances by 2 (R90). The wrap is decision D11 and is
stated apart from it. -/
def advances (s t : State) : Prop := s.pc.toNat ≤ 0xFFC → t.pc.toNat = s.pc.toNat + 2

/-- `t` is `s` with pc past one more instruction when `cond` holds (R135), and with nothing else changed. -/
def skipsWhen (s t : State) (cond : Prop) : Prop :=
  t = { s with pc := t.pc } ∧
    (s.pc.toNat ≤ 0xFFA → (cond → t.pc.toNat = s.pc.toNat + 4) ∧ (¬cond → t.pc.toNat = s.pc.toNat + 2))

/-- `t` is `s` after V[x] was written with `b` and pc advanced, and after nothing else. -/
def setsRegister (s t : State) (x : Reg) (b : Byte) : Prop :=
  t.getV x = b ∧ (∀ r, r ≠ x → t.getV r = s.getV r) ∧ t = { s with v := t.v, pc := t.pc } ∧ advances s t

/-- `t` is `s` after V[x] and the flag register were written at most, and pc advanced. -/
def changesOnly (s t : State) (x : Reg) : Prop :=
  (∀ r, r ≠ x → r ≠ 0xF → t.getV r = s.getV r) ∧ t = { s with v := t.v, pc := t.pc } ∧ advances s t

/-- The pc after a skip instruction at `pc` whose condition is `cond` (R96, decision D12). -/
def pcAfterSkip (pc : Word) (cond : Prop) [Decidable cond] : Word :=
  if cond then advance (pc.toNat + 2) else advance pc.toNat

/-- The four instructions that set pc themselves (R95). -/
def repositions : Instr → Bool
  | .jp _ => true
  | .call _ => true
  | .jpV0 _ => true
  | .ret => true
  | _ => false

/-- Whether a skip instruction's condition holds in `s` (R135 to R138, R196, R197); `false` for the other instructions. -/
def skipTaken (s : State) : Instr → Prop
  | .seImm x kk => s.getV x = kk
  | .sneImm x kk => s.getV x ≠ kk
  | .seReg x y => s.getV x = s.getV y
  | .sneReg x y => s.getV x ≠ s.getV y
  | .skp x => ∃ k : Fin 16, (s.getV x).toNat = k.val ∧ s.keys[k] = true
  | .sknp x => ∃ k : Fin 16, (s.getV x).toNat = k.val ∧ s.keys[k] = false
  | _ => False

/-- Whether `i` is an `Fx0A` that finds no key pressed (R198). -/
def stallsOn (s : State) (i : Instr) : Prop := (∃ x, i = .ldVxK x) ∧ ∀ k : Fin 16, s.keys[k] = false

end Machine

end Sys2Proof
end

