-- ==== Sys2Proof/Certificates/Slice0/Obligations.lean ====
section
/-! DEFINITION. The statements for the provers. Each docstring names the rule of spec/ it formalises; where a clause rests
on a decision of the spec or on a choice of the model, it says so. -/

open Sys2Proof Sys2Proof.Machine

/-! ## Decoding and encoding -/

/-- R92: the fields of the opcode descriptor, as arithmetic on the word, for all 65536 words. -/
def Obligations.DescriptorFieldsAreTheBitFields : Prop :=
  ∀ w : Word,
    (describe w).hi.toNat = w.toNat / 256 ∧ (describe w).lo.toNat = w.toNat % 256 ∧
    (describe w).cls.toNat = w.toNat / 4096 ∧ (describe w).x.toNat = w.toNat / 256 % 16 ∧
    (describe w).y.toNat = w.toNat / 16 % 16 ∧ (describe w).n.toNat = w.toNat % 16 ∧
    (describe w).nnn.toNat = w.toNat % 4096

/-- 30_encoding.md section 2, 40_cycle_dispatch.md section 3: which instruction each word selects, the fields taken by
arithmetic. A failed lookup raises UnrecognizedInstruction with the word and its address (60_exceptions.md section 3); that
the raise is a next state with HALT set and nothing else changed is decision D14 (60_exceptions.md section 2, log entry 6). -/
def Obligations.DispatchFollowsTheTwoLevelTable : Prop :=
  (∀ w : Word, decodeWord w =
    (match w.toNat / 4096 with
    | 0x0 =>
      (match w.toNat % 256 with
      | 0xE0 => some .cls
      | 0xEE => some .ret
      | _ => none)
    | 0x1 => some (.jp (wordNnn w))
    | 0x2 => some (.call (wordNnn w))
    | 0x3 => some (.seImm (wordX w) (wordKk w))
    | 0x4 => some (.sneImm (wordX w) (wordKk w))
    | 0x5 => some (.seReg (wordX w) (wordY w))
    | 0x6 => some (.ldImm (wordX w) (wordKk w))
    | 0x7 => some (.addImm (wordX w) (wordKk w))
    | 0x8 =>
      (match w.toNat % 16 with
      | 0x0 => some (.ldReg (wordX w) (wordY w))
      | 0x1 => some (.or (wordX w) (wordY w))
      | 0x2 => some (.and (wordX w) (wordY w))
      | 0x3 => some (.xor (wordX w) (wordY w))
      | 0x4 => some (.addReg (wordX w) (wordY w))
      | 0x5 => some (.sub (wordX w) (wordY w))
      | 0x6 => some (.shr (wordX w) (wordY w))
      | 0x7 => some (.subn (wordX w) (wordY w))
      | 0xE => some (.shl (wordX w) (wordY w))
      | _ => none)
    | 0x9 => some (.sneReg (wordX w) (wordY w))
    | 0xA => some (.ldI (wordNnn w))
    | 0xB => some (.jpV0 (wordNnn w))
    | 0xC => some (.rnd (wordX w) (wordKk w))
    | 0xD => some (.drw (wordX w) (wordY w) (wordN w))
    | 0xE =>
      (match w.toNat % 256 with
      | 0x9E => some (.skp (wordX w))
      | 0xA1 => some (.sknp (wordX w))
      | _ => none)
    | _ =>
      (match w.toNat % 256 with
      | 0x07 => some (.ldVxDt (wordX w))
      | 0x0A => some (.ldVxK (wordX w))
      | 0x15 => some (.ldDtVx (wordX w))
      | 0x18 => some (.ldStVx (wordX w))
      | 0x1E => some (.addI (wordX w))
      | 0x29 => some (.ldF (wordX w))
      | 0x33 => some (.ldB (wordX w))
      | 0x55 => some (.stRegs (wordX w).val)
      | 0x65 => some (.ldRegs (wordX w).val)
      | _ => none))) ∧
  ∀ (w : Word) (s : State), decodeWord w = none →
    executeWord w s = .next { s with halt := some (.unrecognizedInstruction w s.pc) }

/-- 30_encoding.md sections 1 to 5: the bytes of a well-formed instruction, followed by any bytes, decode to it and leave
the rest. -/
def Obligations.EncodedBytesDecodeBack : Prop :=
  ∀ (i : Instr) (rest : List Byte), i.wellFormed = true → decodeBytes (encodeBytes i ++ rest) = .ok (i, rest)

/-- 30_encoding.md sections 3 and 5: a word that decodes gives a well-formed instruction, whose canonical word is the word
with its don't-care bits at 0. -/
def Obligations.DecodedWordIsTheEncodingUpToIgnoredBits : Prop :=
  ∀ (w : Word) (i : Instr), decodeWord w = some i →
    i.wellFormed = true ∧ encode i = w &&& ~~~ ignoredBits i

/-- 30_encoding.md section 2: a few words of spec/95_test_vectors.md and the instructions they stand for. -/
def Obligations.SomeWordsDecodeAsWritten : Prop :=
  decodeTableWord 16 0x00E0 = some .cls ∧ decodeTableWord 16 0x0AEE = some .ret ∧
  decodeTableWord 16 0xA2F0 = some (.ldI 0x2F0) ∧ decodeTableWord 16 0x6A2C = some (.ldImm 0xA 0x2C) ∧
  decodeTableWord 16 0x8127 = some (.subn 1 2) ∧ decodeTableWord 16 0x512F = some (.seReg 1 2) ∧
  decodeTableWord 16 0xD012 = some (.drw 0 1 2) ∧ decodeTableWord 16 0xF355 = some (.stRegs 3) ∧
  decodeTableWord 16 0xE19F = none ∧ decodeTableWord 16 0x0000 = none

/-! ## Register file and ALU -/

/-- R111: `6xkk`. -/
def Obligations.LoadImmediateSetsRegister : Prop :=
  Encodes 0xF000#16 0x6000#16 (fun w => .ldImm (wordX w) (wordKk w)) ∧
  ∀ (x : Reg) (kk : Byte) (s : State), ∃ t, exec (.ldImm x kk) s = .next t ∧ setsRegister s t x kk

/-- R112: `7xkk`; every other register keeps its value, V[0xF] among them unless x = 0xF. -/
def Obligations.AddImmediateWrapsWithoutFlag : Prop :=
  Encodes 0xF000#16 0x7000#16 (fun w => .addImm (wordX w) (wordKk w)) ∧
  ∀ (x : Reg) (kk : Byte) (s : State), ∃ t, exec (.addImm x kk) s = .next t ∧
    setsRegister s t x (BitVec.ofNat 8 (((s.getV x).toNat + kk.toNat) % 256))

/-- R113 to R116: `8xy0` to `8xy3`; the bitwise results bit by bit. -/
def Obligations.MovesAndLogicSetRegister : Prop :=
  Encodes 0xF00F#16 0x8000#16 (fun w => .ldReg (wordX w) (wordY w)) ∧
  Encodes 0xF00F#16 0x8001#16 (fun w => .or (wordX w) (wordY w)) ∧
  Encodes 0xF00F#16 0x8002#16 (fun w => .and (wordX w) (wordY w)) ∧
  Encodes 0xF00F#16 0x8003#16 (fun w => .xor (wordX w) (wordY w)) ∧
  ∀ (x y : Reg) (s : State),
    (∃ t, exec (.ldReg x y) s = .next t ∧ setsRegister s t x (s.getV y)) ∧
    (∃ t, exec (.or x y) s = .next t ∧ setsRegister s t x (t.getV x) ∧
      ∀ k, k < 8 → (t.getV x).getLsbD k = ((s.getV x).getLsbD k || (s.getV y).getLsbD k)) ∧
    (∃ t, exec (.and x y) s = .next t ∧ setsRegister s t x (t.getV x) ∧
      ∀ k, k < 8 → (t.getV x).getLsbD k = ((s.getV x).getLsbD k && (s.getV y).getLsbD k)) ∧
    (∃ t, exec (.xor x y) s = .next t ∧ setsRegister s t x (t.getV x) ∧
      ∀ k, k < 8 → (t.getV x).getLsbD k = ((s.getV x).getLsbD k ^^ (s.getV y).getLsbD k))

/-- 41_regfile_alu.md sections 4 and 7: `8xy4`. That the flag, written second, remains when x = 0xF is decision D10 (log
entry 9). -/
def Obligations.AddRegistersSetsSumAndCarry : Prop :=
  Encodes 0xF00F#16 0x8004#16 (fun w => .addReg (wordX w) (wordY w)) ∧
  ∀ (x y : Reg) (s : State), ∃ t, exec (.addReg x y) s = .next t ∧
    t.getV 0xF = (if (s.getV x).toNat + (s.getV y).toNat > 255 then 1#8 else 0#8) ∧
    (x ≠ 0xF → t.getV x = BitVec.ofNat 8 (((s.getV x).toNat + (s.getV y).toNat) % 256)) ∧
    changesOnly s t x

/-- 41_regfile_alu.md sections 4 and 7: `8xy5`. That the flag, written second, remains when x = 0xF is decision D10 (log
entry 9). -/
def Obligations.SubtractSetsDifferenceAndNoBorrow : Prop :=
  Encodes 0xF00F#16 0x8005#16 (fun w => .sub (wordX w) (wordY w)) ∧
  ∀ (x y : Reg) (s : State), ∃ t, exec (.sub x y) s = .next t ∧
    t.getV 0xF = (if (s.getV x).toNat ≥ (s.getV y).toNat then 1#8 else 0#8) ∧
    (x ≠ 0xF → t.getV x = BitVec.ofNat 8 ((256 + (s.getV x).toNat - (s.getV y).toNat) % 256)) ∧
    changesOnly s t x

/-- 41_regfile_alu.md sections 4 and 7: `8xy7`. Its reduction modulo 256 is the spec's own derivation (the mark at the rule);
that the flag, written second, remains when x = 0xF is decision D10 (log entry 9). -/
def Obligations.ReverseSubtractSetsDifferenceAndNoBorrow : Prop :=
  Encodes 0xF00F#16 0x8007#16 (fun w => .subn (wordX w) (wordY w)) ∧
  ∀ (x y : Reg) (s : State), ∃ t, exec (.subn x y) s = .next t ∧
    t.getV 0xF = (if (s.getV y).toNat ≥ (s.getV x).toNat then 1#8 else 0#8) ∧
    (x ≠ 0xF → t.getV x = BitVec.ofNat 8 ((256 + (s.getV y).toNat - (s.getV x).toNat) % 256)) ∧
    changesOnly s t x

/-- 41_regfile_alu.md section 4: `8xy6` and `8xyE`; `y` is ignored. That the result stays when x = 0xF is decision D10. -/
def Obligations.ShiftsMoveOneBitToTheFlag : Prop :=
  Encodes 0xF00F#16 0x8006#16 (fun w => .shr (wordX w) (wordY w)) ∧
  Encodes 0xF00F#16 0x800E#16 (fun w => .shl (wordX w) (wordY w)) ∧
  ∀ (x y : Reg) (s : State),
    (∃ t, exec (.shr x y) s = .next t ∧
      (t.getV x).toNat = (s.getV x).toNat / 2 ∧
      (x ≠ 0xF → (t.getV 0xF).toNat = (s.getV x).toNat % 2) ∧ changesOnly s t x) ∧
    (∃ t, exec (.shl x y) s = .next t ∧
      (t.getV x).toNat = (s.getV x).toNat * 2 % 256 ∧
      (x ≠ 0xF → (t.getV 0xF).toNat = (s.getV x).toNat / 128) ∧ changesOnly s t x)

/-- 41_regfile_alu.md section 7 (decision D10): the rows of the table of V[0xF] as an operand; `f` is its old value. -/
def Obligations.FlagRegisterAsOperand : Prop :=
  ∀ (s : State) (f : Nat), (s.getV 0xF).toNat = f →
    (∀ y t, exec (.addReg 0xF y) s = .next t →
      (t.getV 0xF).toNat = if f + (s.getV y).toNat > 255 then 1 else 0) ∧
    (∀ x t, x ≠ 0xF → exec (.addReg x 0xF) s = .next t →
      (t.getV x).toNat = ((s.getV x).toNat + f) % 256 ∧
      (t.getV 0xF).toNat = if (s.getV x).toNat + f > 255 then 1 else 0) ∧
    (∀ y t, exec (.sub 0xF y) s = .next t →
      (t.getV 0xF).toNat = if f ≥ (s.getV y).toNat then 1 else 0) ∧
    (∀ x t, x ≠ 0xF → exec (.sub x 0xF) s = .next t →
      (t.getV x).toNat = (256 + (s.getV x).toNat - f) % 256 ∧
      (t.getV 0xF).toNat = if (s.getV x).toNat ≥ f then 1 else 0) ∧
    (∀ y t, exec (.shr 0xF y) s = .next t → (t.getV 0xF).toNat = f / 2) ∧
    (∀ y t, exec (.subn 0xF y) s = .next t →
      (t.getV 0xF).toNat = if (s.getV y).toNat ≥ f then 1 else 0) ∧
    (∀ x t, x ≠ 0xF → exec (.subn x 0xF) s = .next t →
      (t.getV x).toNat = (256 + f - (s.getV x).toNat) % 256 ∧
      (t.getV 0xF).toNat = if f ≥ (s.getV x).toNat then 1 else 0) ∧
    (∀ y t, exec (.shl 0xF y) s = .next t → (t.getV 0xF).toNat = 2 * f % 256)

/-- 41_regfile_alu.md section 6 (decision D17): `Cxkk`. The byte is the free value Config.draw8 at the number of draws so
far, of which nothing is known; the mask facts hold of any byte. The count of draws is the model's own (log entry 1). -/
def Obligations.RandomByteIsMaskedAndFresh : Prop :=
  Encodes 0xF000#16 0xC000#16 (fun w => .rnd (wordX w) (wordKk w)) ∧
  ∀ (x : Reg) (kk : Byte) (s : State), ∃ t, exec (.rnd x kk) s = .next t ∧
    t.getV x = Config.draw8 s.draws &&& kk ∧ t.getV x &&& ~~~ kk = 0#8 ∧
    (∀ r, r ≠ x → t.getV r = s.getV r) ∧
    t = { s with v := t.v, pc := advance s.pc.toNat, draws := s.draws + 1 }

/-! ## Program counter and call stack -/

/-- 40_cycle_dispatch.md section 4 (decisions D11, D12): the normal advance and the skip, at the top of memory too. -/
def Obligations.AdvanceAndSkipWrapToProgramStart : Prop :=
  ∀ pc : Word,
    (pc.toNat ≤ 0xFFD → (newPc pc .next).toNat = pc.toNat + 2) ∧
    (0xFFD < pc.toNat → newPc pc .next = 0x200#16) ∧
    (pc.toNat ≤ 0xFFB → (newPc pc .skip).toNat = pc.toNat + 4) ∧
    (0xFFB < pc.toNat → newPc pc .skip = 0x200#16) ∧
    (∀ target, newPc pc (.jump target) = target) ∧ newPc pc .stall = pc

/-- 40_cycle_dispatch.md section 4 (decisions D11, D12): where pc goes after each instruction that does not set it itself,
in every state: unchanged on a stall, past one more instruction on a taken skip, else the normal advance. -/
def Obligations.CounterUpdateFollowsTheOutcome : Prop :=
  ∀ (i : Instr) (s t : State), s.halt = none → exec i s = .next t → t.halt = none → repositions i = false →
    (stallsOn s i → t.pc = s.pc) ∧
    (skipTaken s i → t.pc = advance (s.pc.toNat + 2)) ∧
    (¬stallsOn s i → ¬skipTaken s i → t.pc = advance s.pc.toNat)

/-- 42_pc_and_stack.md section 2: `1nnn`. That a target of 0xFFF makes the next cycle raise FetchOutOfBounds(0xFFF) is
decision D5 (log entry 9).
A raise leaves all but HALT as it was: decision D14 (log entry 6). -/
def Obligations.JumpSetsPc : Prop :=
  Encodes 0xF000#16 0x1000#16 (fun w => .jp (wordNnn w)) ∧
  ∀ (nnn : BitVec 12) (s : State), ∃ t, exec (.jp nnn) s = .next t ∧
    t.pc.toNat = nnn.toNat ∧ t = { s with pc := t.pc } ∧
    (s.halt = none → nnn = 0xFFF#12 → ∀ tick,
      cycleWith tick t = .next { t with halt := some (.fetchOutOfBounds 0xFFF#16) })

/-- 42_pc_and_stack.md section 2 (decision D13, conflict C1): `2nnn` pushes the return address Advance(pc) below a full
stack, and takes StackOverflow with nothing else changed at a full one.
A raise leaves all but HALT as it was: decision D14 (log entry 6).
Where the normal advance wraps is decision D11 (40_cycle_dispatch.md section 4, log entry 9). -/
def Obligations.CallPushesReturnAddress : Prop :=
  Encodes 0xF000#16 0x2000#16 (fun w => .call (wordNnn w)) ∧
  ∀ (nnn : BitVec 12) (s : State),
    (s.sp.val < 16 → ∃ t, exec (.call nnn) s = .next t ∧
      t.pc.toNat = nnn.toNat ∧ t.sp.val = s.sp.val + 1 ∧
      (∀ j : Fin 16, t.stack[j] = if j.val = s.sp.val then advance s.pc.toNat else s.stack[j]) ∧
      t = { s with stack := t.stack, sp := t.sp, pc := t.pc }) ∧
    (s.sp.val = 16 → exec (.call nnn) s = .next { s with halt := some (.stackOverflow s.pc) })

/-- 42_pc_and_stack.md section 2: `00EE` pops into pc; StackUnderflow, before any write, at an empty stack. That the popped
entry keeps its value is decision D24 (log entry 9).
A raise leaves all but HALT as it was: decision D14 (log entry 6). -/
def Obligations.ReturnPopsIntoPc : Prop :=
  Encodes 0xF0FF#16 0x00EE#16 (fun _ => .ret) ∧
  ∀ s : State,
    (0 < s.sp.val → ∃ t, exec .ret s = .next t ∧
      t.sp.val + 1 = s.sp.val ∧ (∃ j : Fin 16, j.val = t.sp.val ∧ t.pc = s.stack[j]) ∧
      t = { s with sp := t.sp, pc := t.pc }) ∧
    (s.sp.val = 0 → exec .ret s = .next { s with halt := some (.stackUnderflow s.pc) })

/-- R212, R213: StackOverflow is raised by `2nnn` iff SP = 16, StackUnderflow by `00EE` iff SP = 0, and neither by any
other instruction. -/
def Obligations.StackFaultsExactlyWhenFullOrEmpty : Prop :=
  ∀ (i : Instr) (s t : State), s.halt = none → exec i s = .next t →
    ((∃ p, t.halt = some (.stackOverflow p)) ↔ (∃ nnn, i = .call nnn) ∧ s.sp.val = 16) ∧
    ((∃ p, t.halt = some (.stackUnderflow p)) ↔ i = .ret ∧ s.sp.val = 0)

/-- 42_pc_and_stack.md section 4: a call at depth s and a later return from depth s + 1, the entry untouched in between,
continue at the return address with the depth restored.
Where the normal advance wraps is decision D11 (40_cycle_dispatch.md section 4, log entry 9). -/
def Obligations.CallThenReturnRoundTrip : Prop :=
  ∀ (nnn : BitVec 12) (s t u : State), s.sp.val < 16 → exec (.call nnn) s = .next t →
    u.sp.val = s.sp.val + 1 → (∀ j : Fin 16, j.val = s.sp.val → u.stack[j] = t.stack[j]) →
    ∃ r, exec .ret u = .next r ∧ r.pc = advance s.pc.toNat ∧ r.sp = s.sp

/-- 42_pc_and_stack.md section 2: `Bnnn`. That pc holds the sum unreduced is decision D1, and that a sum of 0xFFF or more
makes the next cycle raise FetchOutOfBounds is decision D5 (log entry 9).
A raise leaves all but HALT as it was: decision D14 (log entry 6). -/
def Obligations.IndexedJumpAddsV0 : Prop :=
  Encodes 0xF000#16 0xB000#16 (fun w => .jpV0 (wordNnn w)) ∧
  ∀ (nnn : BitVec 12) (s : State), ∃ t, exec (.jpV0 nnn) s = .next t ∧
    t.pc.toNat = nnn.toNat + (s.getV 0).toNat ∧ t = { s with pc := t.pc } ∧
    (s.halt = none → 0xFFF ≤ nnn.toNat + (s.getV 0).toNat → ∀ tick,
      cycleWith tick t = .next { t with halt := some (.fetchOutOfBounds t.pc) })

/-- R135 to R138: the four register skips change nothing but pc. -/
def Obligations.RegisterSkipsTestTheirCondition : Prop :=
  Encodes 0xF000#16 0x3000#16 (fun w => .seImm (wordX w) (wordKk w)) ∧
  Encodes 0xF000#16 0x4000#16 (fun w => .sneImm (wordX w) (wordKk w)) ∧
  Encodes 0xF000#16 0x5000#16 (fun w => .seReg (wordX w) (wordY w)) ∧
  Encodes 0xF000#16 0x9000#16 (fun w => .sneReg (wordX w) (wordY w)) ∧
  ∀ (x y : Reg) (kk : Byte) (s : State),
    (∃ t, exec (.seImm x kk) s = .next t ∧ skipsWhen s t ((s.getV x).toNat = kk.toNat)) ∧
    (∃ t, exec (.sneImm x kk) s = .next t ∧ skipsWhen s t ((s.getV x).toNat ≠ kk.toNat)) ∧
    (∃ t, exec (.seReg x y) s = .next t ∧ skipsWhen s t ((s.getV x).toNat = (s.getV y).toNat)) ∧
    (∃ t, exec (.sneReg x y) s = .next t ∧ skipsWhen s t ((s.getV x).toNat ≠ (s.getV y).toNat))

/-! ## Index register and memory -/

/-- R151: `Annn`. -/
def Obligations.LoadIndexSetsI : Prop :=
  Encodes 0xF000#16 0xA000#16 (fun w => .ldI (wordNnn w)) ∧
  ∀ (nnn : BitVec 12) (s : State), ∃ t, exec (.ldI nnn) s = .next t ∧
    t.i.toNat = nnn.toNat ∧ t = { s with i := t.i, pc := t.pc } ∧ advances s t

/-- 43_index_and_memory.md section 2 (decision D20): `Fx1E` modulo 65536 and `Fx29` without a mask; no flag.
Where the normal advance wraps is decision D11 (40_cycle_dispatch.md section 4, log entry 9). -/
def Obligations.IndexAddAndGlyphAddress : Prop :=
  Encodes 0xF0FF#16 0xF01E#16 (fun w => .addI (wordX w)) ∧
  Encodes 0xF0FF#16 0xF029#16 (fun w => .ldF (wordX w)) ∧
  ∀ (x : Reg) (s : State),
    (∃ t, exec (.addI x) s = .next t ∧ t.i.toNat = (s.i.toNat + (s.getV x).toNat) % 65536 ∧
      t = { s with i := t.i, pc := advance s.pc.toNat }) ∧
    (∃ t, exec (.ldF x) s = .next t ∧ t.i.toNat = (s.getV x).toNat * 5 ∧
      t = { s with i := t.i, pc := advance s.pc.toNat })

/-- 43_index_and_memory.md section 3 (decision D6): `Fx33` stores the three digits at I, I + 1, I + 2 and nothing else;
past 0xFFF it takes MemoryOutOfBounds with no byte written.
A raise leaves all but HALT as it was: decision D14 (log entry 6).
Where the normal advance wraps is decision D11 (40_cycle_dispatch.md section 4, log entry 9). -/
def Obligations.BcdStoresThreeDigits : Prop :=
  Encodes 0xF0FF#16 0xF033#16 (fun w => .ldB (wordX w)) ∧
  ∀ (x : Reg) (s : State),
    (s.i.toNat ≤ 0xFFD → ∃ t, exec (.ldB x) s = .next t ∧
      (t.read s.i.toNat).toNat = (s.getV x).toNat / 100 ∧
      (t.read (s.i.toNat + 1)).toNat = (s.getV x).toNat / 10 % 10 ∧
      (t.read (s.i.toNat + 2)).toNat = (s.getV x).toNat % 10 ∧
      (∀ a, a < s.i.toNat ∨ s.i.toNat + 3 ≤ a → t.read a = s.read a) ∧
      t = { s with mem := t.mem, pc := advance s.pc.toNat }) ∧
    (0xFFD < s.i.toNat → exec (.ldB x) s = .next { s with halt := some (.memoryOutOfBounds s.i 3) })

/-- 43_index_and_memory.md section 3 (decision D6): `Fx55` stores V[0] to V[x - 1], I unchanged; a count of 0 never faults;
past 0xFFF it takes MemoryOutOfBounds with no byte written.
A raise leaves all but HALT as it was: decision D14 (log entry 6).
Where the normal advance wraps is decision D11 (40_cycle_dispatch.md section 4, log entry 9). -/
def Obligations.StoreRegistersWritesCountBytes : Prop :=
  Encodes 0xF0FF#16 0xF055#16 (fun w => .stRegs (wordX w).val) ∧
  ∀ (count : Nat) (s : State), count ≤ 15 →
    (count = 0 ∨ s.i.toNat + count - 1 ≤ 0xFFF → ∃ t, exec (.stRegs count) s = .next t ∧
      (∀ k : Reg, k.val < count → t.read (s.i.toNat + k.val) = s.getV k) ∧
      (∀ a, a < s.i.toNat ∨ s.i.toNat + count ≤ a → t.read a = s.read a) ∧
      t = { s with mem := t.mem, pc := advance s.pc.toNat }) ∧
    (0 < count → 0xFFF < s.i.toNat + count - 1 →
      exec (.stRegs count) s = .next { s with halt := some (.memoryOutOfBounds s.i count) })

/-- 43_index_and_memory.md section 3 (decision D6): `Fx65` loads V[0] to V[x - 1], I and memory unchanged; a count of 0
never faults; past 0xFFF it takes MemoryOutOfBounds with no register written.
A raise leaves all but HALT as it was: decision D14 (log entry 6).
Where the normal advance wraps is decision D11 (40_cycle_dispatch.md section 4, log entry 9). -/
def Obligations.LoadRegistersReadsCountBytes : Prop :=
  Encodes 0xF0FF#16 0xF065#16 (fun w => .ldRegs (wordX w).val) ∧
  ∀ (count : Nat) (s : State), count ≤ 15 →
    (count = 0 ∨ s.i.toNat + count - 1 ≤ 0xFFF → ∃ t, exec (.ldRegs count) s = .next t ∧
      (∀ k : Reg, t.getV k = if k.val < count then s.read (s.i.toNat + k.val) else s.getV k) ∧
      t = { s with v := t.v, pc := advance s.pc.toNat }) ∧
    (0 < count → 0xFFF < s.i.toNat + count - 1 →
      exec (.ldRegs count) s = .next { s with halt := some (.memoryOutOfBounds s.i count) })

/-- 43_index_and_memory.md section 3: `Fx55` then, from any state with the same bytes stored and the same I, `Fx65` of the same count
restores what was stored. -/
def Obligations.StoreThenLoadRestoresRegisters : Prop :=
  ∀ (count : Nat) (s t u : State), count ≤ 15 → (count = 0 ∨ s.i.toNat + count - 1 ≤ 0xFFF) →
    exec (.stRegs count) s = .next t →
    (∀ k, k < count → u.read (s.i.toNat + k) = t.read (s.i.toNat + k)) → u.i = s.i →
    ∃ r, exec (.ldRegs count) u = .next r ∧
      (∀ k : Reg, k.val < count → r.getV k = s.getV k) ∧ (∀ k : Reg, count ≤ k.val → r.getV k = u.getV k)

/-! ## Framebuffer -/

/-- R171: `00E0` makes every cell dark and writes no flag. -/
def Obligations.ClearDarkensEveryCell : Prop :=
  Encodes 0xF0FF#16 0x00E0#16 (fun _ => .cls) ∧
  ∀ s : State, ∃ t, exec .cls s = .next t ∧
    (∀ r c, r < 32 → c < 64 → cell t.fb r c = false) ∧ t = { s with fb := t.fb, pc := t.pc } ∧ advances s t

/-- 44_sprite.md sections 1 and 3 (decisions D6, D8, D9, D10): `Dxyn` XORs each cell of the grid with the sprite's bit over
it, rows past 31 having no cell, and sets V[0xF] to 1 iff a lit cell lay under a 1 bit; past 0xFFF it takes
MemoryOutOfBounds with nothing drawn.
A raise leaves all but HALT as it was: decision D14 (log entry 6).
Where the normal advance wraps is decision D11 (40_cycle_dispatch.md section 4, log entry 9). -/
def Obligations.DrawXorsTheSpriteAndReportsCollision : Prop :=
  Encodes 0xF000#16 0xD000#16 (fun w => .drw (wordX w) (wordY w) (wordN w)) ∧
  ∀ (x y : Reg) (height : Nat) (s : State), height ≤ 15 →
    (height = 0 ∨ s.i.toNat + height - 1 ≤ 0xFFF → ∃ t, exec (.drw x y height) s = .next t ∧
      (∀ r c, r < 32 → c < 64 → (cell t.fb r c = true ↔
        ¬(cell s.fb r c = true ↔
          spriteLights s s.i.toNat (s.getV x).toNat (s.getV y).toNat height r c))) ∧
      (t.getV 0xF = 1#8 ∨ t.getV 0xF = 0#8) ∧
      (t.getV 0xF = 1#8 ↔ ∃ r c, r < 32 ∧ c < 64 ∧ cell s.fb r c = true ∧
        spriteLights s s.i.toNat (s.getV x).toNat (s.getV y).toNat height r c) ∧
      (∀ r, r ≠ 0xF → t.getV r = s.getV r) ∧
      t = { s with fb := t.fb, v := t.v, pc := advance s.pc.toNat }) ∧
    (0 < height → 0xFFF < s.i.toNat + height - 1 →
      exec (.drw x y height) s = .next { s with halt := some (.memoryOutOfBounds s.i height) })

/-- 44_sprite.md section 3, vertical clipping (decision D8): an origin row of 32 or more draws nothing and reports no
collision, and no row above the origin row changes. -/
def Obligations.RowsPastTheBottomAreDropped : Prop :=
  ∀ (x y : Reg) (height : Nat) (s t : State), (height = 0 ∨ s.i.toNat + height - 1 ≤ 0xFFF) →
    exec (.drw x y height) s = .next t →
    (32 ≤ (s.getV y).toNat → t.fb = s.fb ∧ t.getV 0xF = 0#8) ∧
    ∀ r : Fin 32, r.val < (s.getV y).toNat ∨ (s.getV y).toNat + height ≤ r.val → t.fb[r] = s.fb[r]

/-- 44_sprite.md section 3, XOR idempotence: two draws of the same sprite at the same origin restore the framebuffer, and
the second reports a collision iff the first lit a cell. The origin registers are not V[0xF], as the rule's last sentence
asks. -/
def Obligations.DrawingTwiceRestoresTheFramebuffer : Prop :=
  ∀ (x y : Reg) (height : Nat) (s t u : State), x ≠ 0xF → y ≠ 0xF →
    (height = 0 ∨ s.i.toNat + height - 1 ≤ 0xFFF) →
    exec (.drw x y height) s = .next t → exec (.drw x y height) t = .next u →
    u.fb = s.fb ∧
    (u.getV 0xF = 1#8 ↔ ∃ r c, r < 32 ∧ c < 64 ∧ cell s.fb r c = false ∧ cell t.fb r c = true)

/-! ## Timers -/

/-- R185: TimerTick decrements each timer that is not zero, independently, and writes nothing else. -/
def Obligations.TickDecrementsNonzeroTimers : Prop :=
  ∀ s : State, s.timerTick.dt.toNat = s.dt.toNat - 1 ∧ s.timerTick.st.toNat = s.st.toNat - 1 ∧
    s.timerTick = { s with dt := s.timerTick.dt, st := s.timerTick.st }

/-- R186: `Fx07` reads DT before the cycle's tick. -/
def Obligations.ReadDelayTimerPrecedesTheTick : Prop :=
  Encodes 0xF0FF#16 0xF007#16 (fun w => .ldVxDt (wordX w)) ∧
  (∀ (x : Reg) (s : State), ∃ t, exec (.ldVxDt x) s = .next t ∧ setsRegister s t x s.dt) ∧
  ∀ (x : Reg) (s : State), s.runs (.ldVxDt x) → ∃ t, cycleWith true s = .next t ∧
    t.getV x = s.dt ∧ t.dt.toNat = s.dt.toNat - 1

/-- 45_timers.md section 1 and section 2 (decision D16): `Fx15` and `Fx18` set their timer, and the tick of the same cycle,
when there is one, already decrements it.
Where the normal advance wraps is decision D11 (40_cycle_dispatch.md section 4, log entry 9). -/
def Obligations.TimerWritesPrecedeTheTick : Prop :=
  Encodes 0xF0FF#16 0xF015#16 (fun w => .ldDtVx (wordX w)) ∧
  Encodes 0xF0FF#16 0xF018#16 (fun w => .ldStVx (wordX w)) ∧
  ∀ (x : Reg) (s : State),
    exec (.ldDtVx x) s = .next { s with dt := s.getV x, pc := advance s.pc.toNat } ∧
    exec (.ldStVx x) s = .next { s with st := s.getV x, pc := advance s.pc.toNat } ∧
    (s.runs (.ldDtVx x) → ∃ t u, cycleWith true s = .next t ∧ cycleWith false s = .next u ∧
      t.dt.toNat = (s.getV x).toNat - 1 ∧ u.dt = s.getV x) ∧
    (s.runs (.ldStVx x) → ∃ t u, cycleWith true s = .next t ∧ cycleWith false s = .next u ∧
      t.st.toNat = (s.getV x).toNat - 1 ∧ u.st = s.getV x)

/-- 40_cycle_dispatch.md section 5, 45_timers.md section 2 (decision D16): every cycle that ends without a fault ticks both
timers once, whatever it runs, `Fx15` and `Fx18` after their write. -/
def Obligations.EveryCompletedCycleTicks : Prop :=
  ∀ (s t : State) (i : Instr), s.runs i → step s = .next t → t.halt = none →
    t.dt.toNat = (match i with | .ldDtVx x => s.getV x | _ => s.dt).toNat - 1 ∧
    t.st.toNat = (match i with | .ldStVx x => s.getV x | _ => s.st).toNat - 1

/-- 45_timers.md section 2, counting down: over n cycles that end without a fault and do not write it, a timer of value a
becomes max(a - n, 0). -/
def Obligations.TimerCountsCyclesDown : Prop :=
  ∀ (n : Nat) (σ : Nat → State),
    (∀ k, k < n → step (σ k) = .next (σ (k + 1)) ∧ (σ (k + 1)).halt = none) →
    ((∀ k x, k < n → ¬(σ k).runs (.ldDtVx x)) → (σ n).dt.toNat = (σ 0).dt.toNat - n) ∧
    ((∀ k x, k < n → ¬(σ k).runs (.ldStVx x)) → (σ n).st.toNat = (σ 0).st.toNat - n)

/-- 10_state.md section 4: no instruction reads ST. Two states that differ in ST alone answer next states that differ in
ST alone. -/
def Obligations.SoundTimerIsNotObservable : Prop :=
  ∀ (s t : State) (b : Byte), step s = .next t →
    ∃ t', step { s with st := b } = .next t' ∧ { t' with st := t.st } = t

/-! ## Keyboard -/

/-- 46_keyboard.md section 2 (decision D7): `Ex9E` and `ExA1` test the key V[x] and change nothing but pc; an index above 15
takes KeyIndexOutOfRange.
A raise leaves all but HALT as it was: decision D14 (log entry 6).
Where pc goes near the top of memory is decisions D11 and D12 (40_cycle_dispatch.md section 4, log entry 9). -/
def Obligations.KeySkipsTestTheKey : Prop :=
  Encodes 0xF0FF#16 0xE09E#16 (fun w => .skp (wordX w)) ∧
  Encodes 0xF0FF#16 0xE0A1#16 (fun w => .sknp (wordX w)) ∧
  ∀ (x : Reg) (s : State),
    (∀ k : Fin 16, (s.getV x).toNat = k.val →
      exec (.skp x) s = .next { s with pc := pcAfterSkip s.pc (s.keys[k] = true) } ∧
      exec (.sknp x) s = .next { s with pc := pcAfterSkip s.pc (s.keys[k] = false) }) ∧
    (15 < (s.getV x).toNat →
      exec (.skp x) s = .next { s with halt := some (.keyIndexOutOfRange (s.getV x)) } ∧
      exec (.sknp x) s = .next { s with halt := some (.keyIndexOutOfRange (s.getV x)) })

/-- R198: `Fx0A` stalls with nothing written while no key is down, else takes the lowest pressed key; the stalled cycle
still ends with its tick. -/
def Obligations.KeyWaitStallsOrTakesLowestKey : Prop :=
  Encodes 0xF0FF#16 0xF00A#16 (fun w => .ldVxK (wordX w)) ∧
  ∀ (x : Reg) (s : State),
    ((∀ k : Fin 16, s.keys[k] = false) → exec (.ldVxK x) s = .next s ∧
      (s.runs (.ldVxK x) → cycleWith true s = .next s.timerTick)) ∧
    (∀ k : Fin 16, s.keys[k] = true → (∀ j : Fin 16, j < k → s.keys[j] = false) →
      ∃ t, exec (.ldVxK x) s = .next t ∧ setsRegister s t x (BitVec.ofNat 8 k.val))

/-- 46_keyboard.md section 3, the key-wait state machine: with no key down, n cycles at an `Fx0A` change the timers alone. -/
def Obligations.WaitingChangesOnlyTheTimers : Prop :=
  ∀ (n : Nat) (x : Reg) (s : State), s.runs (.ldVxK x) → (∀ k : Fin 16, s.keys[k] = false) →
    Host.Core.run Sys2Proof.core n s
      = .next { s with dt := BitVec.ofNat 8 (s.dt.toNat - n), st := BitVec.ofNat 8 (s.st.toNat - n) }

/-! ## The cycle and its faults -/

/-- 40_cycle_dispatch.md sections 1, 2 and 5 (decision D16): a cycle whose bytes at pc decode to `i` is exec of `i`, ended
by one tick when TICK_PER_CYCLE is true and nothing was raised; `step` is the cycle with TICK_PER_CYCLE true (log entry 5).
That a cycle that raises does not tick is decision D14 (log entry 6). -/
def Obligations.StepRunsTheDecodedInstruction : Prop :=
  ∀ (s : State) (i : Instr), s.halt = none → s.pc.toNat + 1 ≤ 0xFFF →
    decodeBytes [s.read s.pc.toNat, s.read (s.pc.toNat + 1)] = .ok (i, []) →
    i.wellFormed = true ∧
    (∀ t, exec i s = .next t → t.halt = none →
      step s = .next t.timerTick ∧ cycleWith true s = .next t.timerTick ∧ cycleWith false s = .next t) ∧
    (∀ t, exec i s = .next t → t.halt ≠ none → step s = .next t ∧ ∀ tick, cycleWith tick s = .next t)

/-- 40_cycle_dispatch.md section 2 and 60_exceptions.md sections 3 and 4 (decisions D5, D14, log
entry 6): the two conditions a cycle raises before any instruction executes, in their order. -/
def Obligations.FetchAndDispatchFaults : Prop :=
  ∀ (s : State) (tick : Bool), s.halt = none →
    (0xFFF ≤ s.pc.toNat → cycleWith tick s = .next { s with halt := some (.fetchOutOfBounds s.pc) }) ∧
    (s.pc.toNat < 0xFFF → decodeWord (wordAt s) = none →
      cycleWith tick s = .next { s with halt := some (.unrecognizedInstruction (wordAt s) s.pc) })

/-- 40_cycle_dispatch.md section 5, 60_exceptions.md section 2 (decision D14): a halted machine answers its fault again and
changes nothing; every host operation but Reset keeps it halted with that fault; Reset makes it run again. -/
def Obligations.HaltedMachineOnlyResets : Prop :=
  ∀ (s : State) (f : Fault) (tick : Bool), s.halt = some f →
    cycleWith tick s = .fault f ∧ hostStep tick .cycle s = (s, .failed f) ∧
    (∀ op, op ≠ .reset → (hostStep tick op s).1.halt = some f) ∧
    (hostStep tick .reset s).1.halt = none

/-- 40_cycle_dispatch.md section 5, 60_exceptions.md section 2 (decision D14): a cycle that raises changes HALT alone and
reports the fault to the host; a cycle that does not reports ok. -/
def Obligations.FaultsArePreciseAndReported : Prop :=
  ∀ (s t : State) (tick : Bool), cycleWith tick s = .next t →
    (∀ f, t.halt = some f → t = { s with halt := some f } ∧ hostStep tick .cycle s = (t, .failed f)) ∧
    (t.halt = none → hostStep tick .cycle s = (t, .ok))

/-- 60_exceptions.md section 4: the one condition each instruction can raise, when (decisions D6, D7), and that the other
instructions raise none. That the state is as before but for HALT is decision D14 (60_exceptions.md section 2, log entry 6). -/
def Obligations.EachInstructionRaisesAtMostItsCondition : Prop :=
  ∀ (i : Instr) (s t : State) (f : Fault), s.halt = none → exec i s = .next t → t.halt = some f →
    t = { s with halt := some f } ∧
    (((∃ nnn, i = .call nnn) ∧ f = .stackOverflow s.pc ∧ s.sp.val = 16) ∨
     (i = .ret ∧ f = .stackUnderflow s.pc ∧ s.sp.val = 0) ∨
     ((∃ x, (i = .skp x ∨ i = .sknp x) ∧ f = .keyIndexOutOfRange (s.getV x) ∧ 15 < (s.getV x).toNat)) ∨
     (∃ count, (i = .stRegs count ∨ i = .ldRegs count ∨ (∃ x y, i = .drw x y count) ∨ (count = 3 ∧ ∃ x, i = .ldB x)) ∧
        f = .memoryOutOfBounds s.i count ∧ 0 < count ∧ 0xFFF < s.i.toNat + count - 1))

/-- 40_cycle_dispatch.md section 1 and section 5 (decision D14): every instruction answers a next state in every state, and
every cycle of a machine that is not halted does; nothing is refused. -/
def Obligations.EveryInstructionAndCycleAnswers : Prop :=
  (∀ (i : Instr) (s : State), ∃ t, exec i s = .next t) ∧
  ∀ (s : State) (tick : Bool), s.halt = none → ∃ t, cycleWith tick s = .next t

/-! ## Whole-machine rules -/

/-- 10_state.md section 10: who writes what. Each element is unchanged by every instruction but its writers; HALT changes
only in an instruction that can raise, and then pc does not. pc has no further row: the counter update of every cycle writes
it. The last two clauses are about the model's own fields (log entries 1 and 2).
Which instructions can raise is 60_exceptions.md section 4, with decisions D6 and D7; that pc, and all else but HALT, is
unchanged by a raise is decision D14 (60_exceptions.md section 2, log entry 6). -/
def Obligations.OnlyTheListedWritersWrite : Prop :=
  ∀ (i : Instr) (s t : State), exec i s = .next t →
    (∀ r : Reg, t.getV r = s.getV r ∨ resultReg i = some r ∨ (r = 0xF ∧ writesFlag i = true) ∨
      ∃ count, i = .ldRegs count ∧ r.val < count) ∧
    t.keys = s.keys ∧
    (t.mem = s.mem ∨ (∃ x, i = .ldB x) ∨ (∃ count, i = .stRegs count)) ∧
    (t.i = s.i ∨ (∃ nnn, i = .ldI nnn) ∨ (∃ x, i = .addI x) ∨ (∃ x, i = .ldF x)) ∧
    (t.sp = s.sp ∨ (∃ nnn, i = .call nnn) ∨ i = .ret) ∧
    (t.stack = s.stack ∨ ∃ nnn, i = .call nnn) ∧
    (t.dt = s.dt ∨ ∃ x, i = .ldDtVx x) ∧
    (t.st = s.st ∨ ∃ x, i = .ldStVx x) ∧
    (t.fb = s.fb ∨ i = .cls ∨ ∃ x y height, i = .drw x y height) ∧
    (t.halt = s.halt ∨ (canRaise i = true ∧ t.pc = s.pc)) ∧
    (t.draws = s.draws ∨ ∃ x kk, i = .rnd x kk) ∧
    t.font = s.font

/-- 20_memory.md section 1: an instruction stores only to the bytes from I that its form names; every other byte of memory
reads as before. -/
def Obligations.StoresStayInTheirRange : Prop :=
  ∀ (i : Instr) (s t : State) (a : Nat), exec i s = .next t →
    (a < s.i.toNat ∨ s.i.toNat + storedBytes i ≤ a) → t.read a = s.read a

/-- R22: a register changes only as an instruction's result, as the flag register of the six flag writers, or as one of the
registers `Fx65` loads; the six, when they raise nothing and do not have V[0xF] as their result, write it with 0 or 1. -/
def Obligations.OnlySixInstructionsWriteTheFlag : Prop :=
  ∀ (i : Instr) (s t : State), exec i s = .next t →
    (∀ r : Reg, t.getV r = s.getV r ∨ resultReg i = some r ∨ (writesFlag i = true ∧ r = 0xF) ∨
      ∃ count, i = .ldRegs count ∧ r.val < count) ∧
    (writesFlag i = true → resultReg i ≠ some 0xF → s.halt = none → t.halt = none →
      t.getV 0xF = 0#8 ∨ t.getV 0xF = 1#8)

/-- 10_state.md section 8: every step keeps the invariant, from every state that has it: the canonical memory, pc at most
0x10FE, the stack entries.
The bounds rest on decisions D1, D11 and D13, and that a raise leaves them on D14 (log entries 6 and 9). -/
def Obligations.EveryStepKeepsTheInvariant : Prop :=
  ∀ (s t : State), s.Inv → (step s = .next t ∨ cycleWith false s = .next t) → t.Inv

/-- 10_state.md section 8: the reset state has the invariant, at every FONT. -/
def Obligations.ResetStateHasTheInvariant : Prop := State.reset.Inv ∧ ∀ f : Font, (State.resetWith f).Inv

/-- 10_state.md section 8, 60_exceptions.md section 7: every host operation keeps the invariant, so every history of
operations from reset does.
The bounds rest on decisions D1, D11 and D13, and that a raise leaves them on D14 (log entries 6 and 9). -/
def Obligations.EveryHostOperationKeepsTheInvariant : Prop :=
  ∀ (tick : Bool) (ops : List HostOp) (s : State), s.Inv →
    (ops.foldl (fun u op => (hostStep tick op u).1) s).Inv

/-! ## Reset and the host interface -/

/-- 10_state.md section 9, 70_reset_and_hazards.md section 1 (decisions D3, D4, D14): Reset, from any state, halted or not.
The zeros are the spec's own decision (log entry 4); FONT is whatever the machine's parameter is (log entry 2). The count of
draws is the model's and goes on (log entry 1). -/
def Obligations.ResetSetsEveryElement : Prop :=
  ∀ (s : State) (tick : Bool), ∃ t, hostStep tick .reset s = (t, .ok) ∧
    (∀ a (h : a < 80), t.read a = fontByte s.font a h) ∧ (∀ a, 80 ≤ a → t.read a = 0#8) ∧
    (∀ r, t.getV r = 0#8) ∧ t.i = 0#16 ∧ t.pc = 0x200#16 ∧ t.sp.val = 0 ∧
    (∀ j : Fin 16, t.stack[j] = 0#16) ∧ t.dt = 0#8 ∧ t.st = 0#8 ∧ (∀ k : Fin 16, t.keys[k] = false) ∧
    (∀ r c, cell t.fb r c = false) ∧ t.halt = none ∧ t.draws = s.draws ∧ t.font = s.font ∧
    t = { State.resetWith s.font with draws := s.draws }

/-- 70_reset_and_hazards.md section 2 (decision D19): LoadProgram writes exactly its bytes from 0x200 and nothing else. -/
def Obligations.LoadProgramCopiesTheBytes : Prop :=
  ∀ (bytes : List Byte) (s : State) (tick : Bool), bytes.length ≤ 3584 →
    ∃ t, hostStep tick (.loadProgram bytes) s = (t, .ok) ∧
      (∀ k (h : k < bytes.length), t.read (0x200 + k) = bytes[k]) ∧
      (∀ a, a < 0x200 ∨ 0x200 + bytes.length ≤ a → t.read a = s.read a) ∧
      t = { s with mem := t.mem }

/-- R211: LoadOverflow is the failure result of LoadProgram, raised when the length exceeds 3584; nothing changes and HALT is
not set. -/
def Obligations.LoadOverflowLeavesTheMachineUnmodified : Prop :=
  ∀ (bytes : List Byte) (s : State) (tick : Bool),
    (3584 < bytes.length → hostStep tick (.loadProgram bytes) s = (s, .failed (.loadOverflow bytes.length))) ∧
    (∀ n, (hostStep tick (.loadProgram bytes) s).2 = .failed (.loadOverflow n) → 3584 < bytes.length) ∧
    ∀ n, (hostStep tick .cycle s).1.halt = some (.loadOverflow n) → s.halt = some (.loadOverflow n)

/-- 46_keyboard.md section 1 (decision D19): SetKey sets one key flag and nothing else, on a halted machine too; an index
above 15 is refused. TimerTick is an operation only when TICK_PER_CYCLE is false (decision D16). -/
def Obligations.SetKeyAndHostTickChangeTheirOwn : Prop :=
  ∀ (s : State) (tick : Bool),
    (∀ (k : Fin 16) (b : Bool), ∃ t, hostStep tick (.setKey k.val b) s = (t, .ok) ∧
      (∀ j : Fin 16, t.keys[j] = if j = k then b else s.keys[j]) ∧ t = { s with keys := t.keys }) ∧
    (∀ (k : Nat) (b : Bool), 15 < k → hostStep tick (.setKey k b) s = (s, .refused (.keyOutsideInterface k))) ∧
    hostStep false .timerTick s = (s.timerTick, .ok) ∧
    hostStep true .timerTick s = (s, .refused .noTickOperation)

/-- 00_scope.md section 4, 10_state.md section 7: FONT is a parameter, not state: no instruction, cycle or host operation
writes the value the model carries, and a machine made with any FONT has it in the bytes 0 to 79 after reset. -/
def Obligations.FontIsAParameterThatNothingWrites : Prop :=
  (∀ (i : Instr) (s t : State), exec i s = .next t → t.font = s.font) ∧
  (∀ (tick : Bool) (s t : State), cycleWith tick s = .next t → t.font = s.font) ∧
  (∀ (tick : Bool) (ops : List HostOp) (s : State), (ops.foldl (fun u op => (hostStep tick op u).1) s).font = s.font) ∧
  ∀ (f : Font) (a : Nat), (∀ h : a < 80, (State.resetWith f).read a = fontByte f a h) ∧
    (80 ≤ a → (State.resetWith f).read a = 0#8)
end

