-- ==== Sys2Proof/Laws/Decode.lean ====
section
/-! SUPPORT. Laws of the fields, the packers and the decoder: a packed word's fields are what was packed, a masked word's
fields are those of its pattern, and what a word that decodes looks like. -/

namespace Sys2Proof

/-! ## Fields as numbers -/

theorem describe_cls_toNat (w : Word) : (describe w).cls.toNat = w.toNat / 4096 := by
  have := w.isLt
  simp [describe, BitVec.extractLsb'_toNat, Nat.shiftRight_eq_div_pow]; omega

theorem describe_x_toNat (w : Word) : (describe w).x.toNat = w.toNat / 256 % 16 := by
  simp [describe, BitVec.extractLsb'_toNat, Nat.shiftRight_eq_div_pow]

theorem describe_y_toNat (w : Word) : (describe w).y.toNat = w.toNat / 16 % 16 := by
  simp [describe, BitVec.extractLsb'_toNat, Nat.shiftRight_eq_div_pow]

theorem describe_n_toNat (w : Word) : (describe w).n.toNat = w.toNat % 16 := by
  simp [describe, BitVec.extractLsb'_toNat]

theorem describe_lo_toNat (w : Word) : (describe w).lo.toNat = w.toNat % 256 := by
  simp [describe, BitVec.extractLsb'_toNat]

theorem describe_hi_toNat (w : Word) : (describe w).hi.toNat = w.toNat / 256 := by
  have := w.isLt
  simp [describe, BitVec.extractLsb'_toNat, Nat.shiftRight_eq_div_pow]; omega

theorem describe_nnn_toNat (w : Word) : (describe w).nnn.toNat = w.toNat % 4096 := by
  simp [describe, BitVec.extractLsb'_toNat]

/-! ## Packed words as numbers -/

theorem append_toNat {m n : Nat} (a : BitVec m) (b : BitVec n) :
    (a ++ b).toNat = a.toNat * 2 ^ n + b.toNat := by
  rw [BitVec.toNat_append, ← Nat.shiftLeft_add_eq_or_of_lt b.isLt, Nat.shiftLeft_eq]

theorem packNibbles_toNat (c x y n : Nibble) :
    (packNibbles c x y n).toNat = c.toNat * 4096 + x.toNat * 256 + y.toNat * 16 + n.toNat := by
  have h : packNibbles c x y n = BitVec.cast (by rfl) (((c ++ x) ++ y) ++ n) := rfl
  rw [h, BitVec.toNat_cast, append_toNat, append_toNat, append_toNat]; omega

theorem packByte_toNat (c x : Nibble) (lo : Byte) :
    (packByte c x lo).toNat = c.toNat * 4096 + x.toNat * 256 + lo.toNat := by
  have h : packByte c x lo = BitVec.cast (by rfl) ((c ++ x) ++ lo) := rfl
  rw [h, BitVec.toNat_cast, append_toNat, append_toNat]; omega

theorem packAddr_toNat (c : Nibble) (nnn : BitVec 12) :
    (packAddr c nnn).toNat = c.toNat * 4096 + nnn.toNat := by
  have h : packAddr c nnn = BitVec.cast (by rfl) (c ++ nnn) := rfl
  rw [h, BitVec.toNat_cast, append_toNat]; omega

theorem wordOfBytes_toNat (hi lo : Byte) : (wordOfBytes hi lo).toNat = hi.toNat * 256 + lo.toNat := by
  have h : wordOfBytes hi lo = BitVec.cast (by rfl) (hi ++ lo) := rfl
  rw [h, BitVec.toNat_cast, append_toNat]; omega

/-! ## The fields of a packed word -/

@[simp] theorem describe_packNibbles_cls (c x y n : Nibble) : (describe (packNibbles c x y n)).cls = c := by
  have := c.isLt; have := x.isLt; have := y.isLt; have := n.isLt
  apply BitVec.eq_of_toNat_eq; rw [describe_cls_toNat, packNibbles_toNat]; omega

@[simp] theorem describe_packNibbles_x (c x y n : Nibble) : (describe (packNibbles c x y n)).x = x := by
  have := c.isLt; have := x.isLt; have := y.isLt; have := n.isLt
  apply BitVec.eq_of_toNat_eq; rw [describe_x_toNat, packNibbles_toNat]; omega

@[simp] theorem describe_packNibbles_y (c x y n : Nibble) : (describe (packNibbles c x y n)).y = y := by
  have := c.isLt; have := x.isLt; have := y.isLt; have := n.isLt
  apply BitVec.eq_of_toNat_eq; rw [describe_y_toNat, packNibbles_toNat]; omega

@[simp] theorem describe_packNibbles_n (c x y n : Nibble) : (describe (packNibbles c x y n)).n = n := by
  have := c.isLt; have := x.isLt; have := y.isLt; have := n.isLt
  apply BitVec.eq_of_toNat_eq; rw [describe_n_toNat, packNibbles_toNat]; omega

@[simp] theorem describe_packByte_cls (c x : Nibble) (lo : Byte) : (describe (packByte c x lo)).cls = c := by
  have := c.isLt; have := x.isLt; have := lo.isLt
  apply BitVec.eq_of_toNat_eq; rw [describe_cls_toNat, packByte_toNat]; omega

@[simp] theorem describe_packByte_x (c x : Nibble) (lo : Byte) : (describe (packByte c x lo)).x = x := by
  have := c.isLt; have := x.isLt; have := lo.isLt
  apply BitVec.eq_of_toNat_eq; rw [describe_x_toNat, packByte_toNat]; omega

@[simp] theorem describe_packByte_lo (c x : Nibble) (lo : Byte) : (describe (packByte c x lo)).lo = lo := by
  have := c.isLt; have := x.isLt; have := lo.isLt
  apply BitVec.eq_of_toNat_eq; rw [describe_lo_toNat, packByte_toNat]; omega

@[simp] theorem describe_packAddr_cls (c : Nibble) (nnn : BitVec 12) : (describe (packAddr c nnn)).cls = c := by
  have := c.isLt; have := nnn.isLt
  apply BitVec.eq_of_toNat_eq; rw [describe_cls_toNat, packAddr_toNat]; omega

@[simp] theorem describe_packAddr_nnn (c : Nibble) (nnn : BitVec 12) : (describe (packAddr c nnn)).nnn = nnn := by
  have := c.isLt; have := nnn.isLt
  apply BitVec.eq_of_toNat_eq; rw [describe_nnn_toNat, packAddr_toNat]; omega

@[simp] theorem regOf_nibbleOf (x : Reg) : regOf (nibbleOf x) = x := rfl

@[simp] theorem nibbleOf_regOf (f : Nibble) : nibbleOf (regOf f) = f := rfl

theorem nibbleOfNat_toNat {k : Nat} (h : k ≤ 15) : (nibbleOfNat k).toNat = k := by
  simp only [nibbleOfNat, BitVec.toNat_ofNat]; omega

@[simp] theorem nibbleOfNat_of_toNat (f : Nibble) : nibbleOfNat f.toNat = f := by simp [nibbleOfNat]

/-- The two bytes of a word, put together again. -/
@[simp] theorem wordOfBytes_bytesOfWord (w : Word) : wordOfBytes (w.extractLsb' 8 8) (w.extractLsb' 0 8) = w := by
  apply BitVec.eq_of_toNat_eq
  have := w.isLt
  rw [wordOfBytes_toNat]
  simp [BitVec.extractLsb'_toNat, Nat.shiftRight_eq_div_pow]; omega

/-! ## The fields of a masked word -/

/-- A masked word has the pattern's value in every field the mask covers. -/
theorem describe_of_mask {w mask pattern : Word} (h : w &&& mask = pattern) (start len : Nat)
    (covered : mask.extractLsb' start len = BitVec.allOnes len) :
    w.extractLsb' start len = pattern.extractLsb' start len := by
  rw [← h, BitVec.extractLsb'_and, covered, BitVec.and_allOnes]

/-! ## A word from its own fields -/

/-- The fields of formats XKK and X make up the word. -/
theorem packByte_describe (w : Word) : packByte (describe w).cls (describe w).x (describe w).lo = w := by
  apply BitVec.eq_of_toNat_eq
  have := w.isLt
  rw [packByte_toNat, describe_cls_toNat, describe_x_toNat, describe_lo_toNat]; omega

/-- The four nibbles make up the word. -/
theorem packNibbles_describe (w : Word) :
    packNibbles (describe w).cls (describe w).x (describe w).y (describe w).n = w := by
  apply BitVec.eq_of_toNat_eq
  have := w.isLt
  rw [packNibbles_toNat, describe_cls_toNat, describe_x_toNat, describe_y_toNat, describe_n_toNat]; omega

/-- The fields of format NNN make up the word. -/
theorem packAddr_describe (w : Word) : packAddr (describe w).cls (describe w).nnn = w := by
  apply BitVec.eq_of_toNat_eq
  have := w.isLt
  rw [packAddr_toNat, describe_cls_toNat, describe_nnn_toNat]; omega

/-- The word with its x nibble at 0. -/
theorem packByte_describe_zero_x (w : Word) : packByte (describe w).cls 0x0#4 (describe w).lo = w &&& 0xF0FF#16 := by
  apply BitVec.eq_of_getLsbD_eq
  intro k hk
  have h : packByte (describe w).cls 0x0#4 (describe w).lo
      = BitVec.cast (by rfl) (((describe w).cls ++ 0x0#4) ++ (describe w).lo) := rfl
  rw [h]
  rw [BitVec.getLsbD_cast]
  simp only [BitVec.getLsbD_append]
  interval_cases k <;> simp [describe]

/-- The word with its n nibble at 0. -/
theorem packNibbles_describe_zero_n (w : Word) :
    packNibbles (describe w).cls (describe w).x (describe w).y 0x0#4 = w &&& 0xFFF0#16 := by
  apply BitVec.eq_of_getLsbD_eq
  intro k hk
  have h : packNibbles (describe w).cls (describe w).x (describe w).y 0x0#4
      = BitVec.cast (by rfl) ((((describe w).cls ++ (describe w).x) ++ (describe w).y) ++ 0x0#4) := rfl
  rw [h]
  rw [BitVec.getLsbD_cast]
  simp only [BitVec.getLsbD_append]
  interval_cases k <;> simp [describe]

/-! ## Bytes -/

theorem decodeBytes_bytesOfWord (w : Word) (rest : List Byte) :
    decodeBytes (bytesOfWord w ++ rest)
      = match decodeWord w with
        | some i => .ok (i, rest)
        | none => .error (.unrecognized w) := by
  change (match decodeWord (wordOfBytes (w.extractLsb' 8 8) (w.extractLsb' 0 8)) with
    | some i => Except.ok (i, rest)
    | none => Except.error (DecodeError.unrecognized (wordOfBytes (w.extractLsb' 8 8) (w.extractLsb' 0 8)))) = _
  rw [wordOfBytes_bytesOfWord]

theorem decodeTableWord_eq (nbits w : Nat) : decodeTableWord nbits w = decodeWord (tableWord nbits w) := by
  have h := decodeBytes_bytesOfWord (tableWord nbits w) []
  rw [List.append_nil] at h
  rw [decodeTableWord, h]
  cases decodeWord (tableWord nbits w) <;> rfl

end Sys2Proof
end

