-- ==== Sys2Proof/Laws/Memory.lean ====
section
/-! SUPPORT. Laws of memory: a read after a write, the canonical form is kept, equal reads mean equal memories. -/

namespace Sys2Proof.Machine

variable {f : Font}

/-! ## One byte -/

theorem Memory.find_put (a c : Nat) (v : Byte) (m : Memory) :
    Memory.find c (Memory.put a v m) = if c = a then some v else Memory.find c m := by
  induction m with
  | nil => simp [Memory.put, Memory.find]
  | cons p m ih =>
    obtain ⟨b, w⟩ := p
    simp only [Memory.put]
    split
    · simp [Memory.find]
    · split
      · rename_i h; subst h
        simp only [Memory.find]; split <;> rfl
      · rename_i h1 h2
        simp only [Memory.find, ih]
        split
        · rename_i hc; subst hc; simp [Ne.symm h2]
        · rfl

theorem Memory.find_drop (a c : Nat) (m : Memory) :
    Memory.find c (Memory.drop a m) = if c = a then none else Memory.find c m := by
  induction m with
  | nil => simp [Memory.drop, Memory.find]
  | cons p m ih =>
    obtain ⟨b, w⟩ := p
    unfold Memory.drop at ih ⊢
    by_cases hb : b = a
    · subst hb
      simp only [ne_eq, not_true_eq_false, decide_false, Bool.false_eq_true, not_false_eq_true, List.filter_cons_of_neg]
      rw [ih]; simp only [Memory.find]; split <;> rfl
    · rw [List.filter_cons_of_pos (by simpa using hb)]
      simp only [Memory.find, ih]
      split
      · rename_i hc; subst hc; simp [hb]
      · rfl

/-- A read after a write: the written byte at its address, every other byte as before (R59). -/
theorem Memory.read_write (m : Memory) (a c : Nat) (v : Byte) :
    Memory.read f (Memory.write f m a v) c = if c = a ∧ a ≤ 0xFFF then v else Memory.read f m c := by
  unfold Memory.read Memory.write
  by_cases ha : a ≤ 0xFFF
  · simp only [ha, if_true, and_true]
    split
    · rename_i hv; rw [Memory.find_drop]; split
      · rename_i hc; simp [hc, hv]
      · rfl
    · rw [Memory.find_put]; split <;> simp
  · simp [ha]

theorem Memory.mem_put {p : Host.Cell} {a : Nat} {v : Byte} {m : Memory} (h : p ∈ Memory.put a v m) :
    p = (a, v) ∨ p ∈ m := by
  induction m with
  | nil => simpa [Memory.put] using h
  | cons q m ih =>
    obtain ⟨b, w⟩ := q
    simp only [Memory.put] at h
    split at h
    · simpa using h
    · split at h
      · simp only [List.mem_cons] at h ⊢; tauto
      · simp only [List.mem_cons] at h ⊢
        rcases h with h | h
        · exact .inr (.inl h)
        · rcases ih h with h | h <;> tauto

theorem Memory.put_sorted {a : Nat} {v : Byte} {m : Memory} (h : m.Pairwise fun p q => p.1 < q.1) :
    (Memory.put a v m).Pairwise fun p q => p.1 < q.1 := by
  induction m with
  | nil => simp [Memory.put]
  | cons q m ih =>
    obtain ⟨b, w⟩ := q
    rw [List.pairwise_cons] at h
    simp only [Memory.put]
    split
    · rename_i hab
      refine List.pairwise_cons.2 ⟨fun p hp => ?_, List.pairwise_cons.2 h⟩
      rcases List.mem_cons.1 hp with rfl | hp
      · exact hab
      · exact Nat.lt_trans hab (h.1 p hp)
    · split
      · rename_i hab; subst hab; exact List.pairwise_cons.2 h
      · refine List.pairwise_cons.2 ⟨fun p hp => ?_, ih h.2⟩
        rcases Memory.mem_put hp with rfl | hp
        · simp only; omega
        · exact h.1 p hp

/-- Every write keeps the canonical form. -/
theorem Memory.write_wf {m : Memory} (h : m.wf f) (a : Nat) (v : Byte) : (Memory.write f m a v).wf f := by
  unfold Memory.write
  split
  · split
    · exact ⟨h.1.filter _, fun p hp => h.2 p (List.mem_filter.1 hp).1⟩
    · rename_i ha hv
      refine ⟨Memory.put_sorted h.1, fun p hp => ?_⟩
      rcases Memory.mem_put hp with rfl | hp
      · exact ⟨ha, hv⟩
      · exact h.2 p hp
  · exact h

/-! ## Runs of bytes -/

theorem Memory.writeBytes_wf {m : Memory} (h : m.wf f) (a : Nat) (bs : List Byte) : (Memory.writeBytes f m a bs).wf f := by
  induction bs generalizing m a with
  | nil => exact h
  | cons b bs ih => exact ih (Memory.write_wf h a b) (a + 1)

/-- A read after a run of bytes is written: the byte of the run that lies at the address, else the byte before. -/
theorem Memory.read_writeBytes (m : Memory) (a c : Nat) (bs : List Byte) :
    Memory.read f (Memory.writeBytes f m a bs) c
      = if h : a ≤ c ∧ c < a + bs.length ∧ c ≤ 0xFFF then bs[c - a]'(by omega) else Memory.read f m c := by
  induction bs generalizing m a with
  | nil => simp only [Memory.writeBytes, List.length_nil]; split <;> [omega; rfl]
  | cons b bs ih =>
    simp only [Memory.writeBytes, ih, Memory.read_write, List.length_cons]
    by_cases hca : c = a
    · subst hca
      by_cases hc : c ≤ 0xFFF
      · rw [dif_neg (by omega), if_pos ⟨rfl, hc⟩, dif_pos (by omega)]; simp
      · rw [dif_neg (by omega), if_neg (by omega), dif_neg (by omega)]
    · by_cases h : a + 1 ≤ c ∧ c < a + 1 + bs.length ∧ c ≤ 0xFFF
      · rw [dif_pos h, dif_pos (by omega), List.getElem_cons]
        rw [dif_neg (by omega)]; congr 1
      · rw [dif_neg h, if_neg (by omega), dif_neg (by omega)]

@[simp] theorem Memory.readBytes_length (m : Memory) (a k : Nat) : (Memory.readBytes f m a k).length = k := by
  induction k generalizing a with
  | zero => rfl
  | succ k ih => simp [Memory.readBytes, ih]

theorem Memory.getElem_readBytes (m : Memory) (a k j : Nat) (h : j < (Memory.readBytes f m a k).length) :
    (Memory.readBytes f m a k)[j] = Memory.read f m (a + j) := by
  induction k generalizing a j with
  | zero => simp at h
  | succ k ih =>
    simp only [Memory.readBytes]
    cases j with
    | zero => simp
    | succ j =>
      rw [List.getElem_cons_succ, ih]; congr 1; omega

/-! ## Extensionality -/

theorem Memory.find_eq_none_of_lt {a : Nat} {m : Memory} (h : ∀ p ∈ m, a < p.1) : Memory.find a m = none := by
  induction m with
  | nil => rfl
  | cons p m ih =>
    obtain ⟨b, w⟩ := p
    have hb : a < b := h (b, w) (List.mem_cons_self ..)
    simp only [Memory.find, if_neg (Nat.ne_of_lt hb)]
    exact ih fun p hp => h p (List.mem_cons_of_mem _ hp)

theorem Memory.find_background {m : Memory} (h : m.wf f) (a : Nat) : Memory.find a m ≠ some (Memory.background f a) := by
  obtain ⟨-, h⟩ := h
  induction m with
  | nil => simp [Memory.find]
  | cons p m ih =>
    obtain ⟨b, w⟩ := p
    simp only [Memory.find]
    split
    · rename_i hab; subst hab
      intro hw; exact (h _ (List.mem_cons_self ..)).2 (Option.some.inj hw)
    · exact ih fun p hp => h p (List.mem_cons_of_mem _ hp)

theorem Memory.find_eq_of_read {m m' : Memory} (h : m.wf f) (h' : m'.wf f) (hr : ∀ a, m.read f a = m'.read f a) (a : Nat) :
    Memory.find a m = Memory.find a m' := by
  have hm := Memory.find_background h a
  have hm' := Memory.find_background h' a
  have := hr a
  unfold Memory.read at this
  cases h1 : Memory.find a m <;> cases h2 : Memory.find a m' <;> simp_all

theorem Memory.eq_of_find {m m' : Memory} (h : m.Pairwise fun p q => p.1 < q.1) (h' : m'.Pairwise fun p q => p.1 < q.1)
    (hf : ∀ a, Memory.find a m = Memory.find a m') : m = m' := by
  induction m generalizing m' with
  | nil =>
    cases m' with
    | nil => rfl
    | cons p m' => have := hf p.1; simp [Memory.find] at this
  | cons p m ih =>
    obtain ⟨b, w⟩ := p
    cases m' with
    | nil => have := hf b; simp [Memory.find] at this
    | cons q m' =>
      obtain ⟨c, u⟩ := q
      rw [List.pairwise_cons] at h h'
      have hbc : b = c := by
        rcases Nat.lt_trichotomy b c with hlt | heq | hgt
        · have h1 : Memory.find b ((c, u) :: m') = none := by
            apply Memory.find_eq_none_of_lt; intro p hp
            rcases List.mem_cons.1 hp with rfl | hp
            · exact hlt
            · exact Nat.lt_trans hlt (h'.1 p hp)
          have h2 := hf b; rw [h1] at h2; simp [Memory.find] at h2
        · exact heq
        · have h1 : Memory.find c ((b, w) :: m) = none := by
            apply Memory.find_eq_none_of_lt; intro p hp
            rcases List.mem_cons.1 hp with rfl | hp
            · exact hgt
            · exact Nat.lt_trans hgt (h.1 p hp)
          have h2 := hf c; rw [h1] at h2; simp [Memory.find] at h2
      subst hbc
      have hw : w = u := by have := hf b; simpa [Memory.find] using this
      subst hw
      congr 1
      refine ih h.2 h'.2 fun a => ?_
      by_cases hab : a = b
      · subst hab
        rw [Memory.find_eq_none_of_lt h.1, Memory.find_eq_none_of_lt h'.1]
      · have := hf a; simpa [Memory.find, hab] using this

/-- Two canonical memories that read the same are the same. -/
theorem Memory.ext_read {m m' : Memory} (h : m.wf f) (h' : m'.wf f) (hr : ∀ a, m.read f a = m'.read f a) : m = m' :=
  Memory.eq_of_find h.1 h'.1 (Memory.find_eq_of_read h h' hr)

/-- The background above the font is zero. -/
theorem Memory.background_of_ge {a : Nat} (h : 80 ≤ a) : Memory.background f a = 0#8 := dif_neg (by omega)

/-- The background of the font's addresses is the font. -/
theorem Memory.background_of_lt {a : Nat} (h : a < 80) : Memory.background f a = fontByte f a h := dif_pos h

/-! ## The same, over a state -/

theorem State.read_writeBytes (s : State) (a c : Nat) (bs : List Byte) :
    (s.writeBytes a bs).read c
      = if h : a ≤ c ∧ c < a + bs.length ∧ c ≤ 0xFFF then bs[c - a]'(by omega) else s.read c :=
  Memory.read_writeBytes s.mem a c bs

theorem State.writeBytes_wf {s : State} (h : s.mem.wf s.font) (a : Nat) (bs : List Byte) :
    (s.writeBytes a bs).mem.wf (s.writeBytes a bs).font := Memory.writeBytes_wf h a bs

@[simp] theorem State.readBytes_length (s : State) (a k : Nat) : (s.readBytes a k).length = k :=
  Memory.readBytes_length s.mem a k

theorem State.getElem_readBytes (s : State) (a k j : Nat) (h : j < (s.readBytes a k).length) :
    (s.readBytes a k)[j] = s.read (a + j) := Memory.getElem_readBytes s.mem a k j h

/-- Two states of one machine whose canonical memories read the same have the same memory. -/
theorem State.ext_read {s t : State} (hf : s.font = t.font) (hs : s.mem.wf s.font) (ht : t.mem.wf t.font)
    (hr : ∀ a, s.read a = t.read a) : s.mem = t.mem := by
  unfold State.read at hr
  rw [hf] at hs hr
  exact Memory.ext_read hs ht hr

end Sys2Proof.Machine
end

