-- ==== Sys2Proof/Laws/PerInstr.lean ====
section
/-! SUPPORT. The per-instruction family Encoding: the decoder reads back the word of a well-formed instruction. -/

namespace Sys2Proof.Laws.Encoding

/-- What the family says of one instruction. -/
def Statement (i : Instr) : Prop := i.wellFormed = true → decodeWord (encode i) = some i

theorem cls : Statement .cls := fun _ => by
  simp [encode, decodeWord, select, selectClass0]

theorem ret : Statement .ret := fun _ => by
  simp [encode, decodeWord, select, selectClass0]

theorem jp (nnn : BitVec 12) : Statement (.jp nnn) := fun _ => by
  simp [encode, decodeWord, select]

theorem call (nnn : BitVec 12) : Statement (.call nnn) := fun _ => by
  simp [encode, decodeWord, select]

theorem seImm (x : Reg) (kk : Byte) : Statement (.seImm x kk) := fun _ => by
  simp [encode, decodeWord, select]

theorem sneImm (x : Reg) (kk : Byte) : Statement (.sneImm x kk) := fun _ => by
  simp [encode, decodeWord, select]

theorem seReg (x : Reg) (y : Reg) : Statement (.seReg x y) := fun _ => by
  simp [encode, decodeWord, select]

theorem ldImm (x : Reg) (kk : Byte) : Statement (.ldImm x kk) := fun _ => by
  simp [encode, decodeWord, select]

theorem addImm (x : Reg) (kk : Byte) : Statement (.addImm x kk) := fun _ => by
  simp [encode, decodeWord, select]

theorem ldReg (x : Reg) (y : Reg) : Statement (.ldReg x y) := fun _ => by
  simp [encode, decodeWord, select, selectClass8]

theorem or (x : Reg) (y : Reg) : Statement (.or x y) := fun _ => by
  simp [encode, decodeWord, select, selectClass8]

theorem and (x : Reg) (y : Reg) : Statement (.and x y) := fun _ => by
  simp [encode, decodeWord, select, selectClass8]

theorem xor (x : Reg) (y : Reg) : Statement (.xor x y) := fun _ => by
  simp [encode, decodeWord, select, selectClass8]

theorem addReg (x : Reg) (y : Reg) : Statement (.addReg x y) := fun _ => by
  simp [encode, decodeWord, select, selectClass8]

theorem sub (x : Reg) (y : Reg) : Statement (.sub x y) := fun _ => by
  simp [encode, decodeWord, select, selectClass8]

theorem shr (x : Reg) (y : Reg) : Statement (.shr x y) := fun _ => by
  simp [encode, decodeWord, select, selectClass8]

theorem subn (x : Reg) (y : Reg) : Statement (.subn x y) := fun _ => by
  simp [encode, decodeWord, select, selectClass8]

theorem shl (x : Reg) (y : Reg) : Statement (.shl x y) := fun _ => by
  simp [encode, decodeWord, select, selectClass8]

theorem sneReg (x : Reg) (y : Reg) : Statement (.sneReg x y) := fun _ => by
  simp [encode, decodeWord, select]

theorem ldI (nnn : BitVec 12) : Statement (.ldI nnn) := fun _ => by
  simp [encode, decodeWord, select]

theorem jpV0 (nnn : BitVec 12) : Statement (.jpV0 nnn) := fun _ => by
  simp [encode, decodeWord, select]

theorem rnd (x : Reg) (kk : Byte) : Statement (.rnd x kk) := fun _ => by
  simp [encode, decodeWord, select]

theorem drw (x : Reg) (y : Reg) (height : Nat) : Statement (.drw x y height) := fun h => by
  have hk : height ≤ 15 := of_decide_eq_true h
  simp [encode, decodeWord, select, nibbleOfNat_toNat hk]

theorem skp (x : Reg) : Statement (.skp x) := fun _ => by
  simp [encode, decodeWord, select, selectClassE]

theorem sknp (x : Reg) : Statement (.sknp x) := fun _ => by
  simp [encode, decodeWord, select, selectClassE]

theorem ldVxDt (x : Reg) : Statement (.ldVxDt x) := fun _ => by
  simp [encode, decodeWord, select, selectClassF]

theorem ldVxK (x : Reg) : Statement (.ldVxK x) := fun _ => by
  simp [encode, decodeWord, select, selectClassF]

theorem ldDtVx (x : Reg) : Statement (.ldDtVx x) := fun _ => by
  simp [encode, decodeWord, select, selectClassF]

theorem ldStVx (x : Reg) : Statement (.ldStVx x) := fun _ => by
  simp [encode, decodeWord, select, selectClassF]

theorem addI (x : Reg) : Statement (.addI x) := fun _ => by
  simp [encode, decodeWord, select, selectClassF]

theorem ldF (x : Reg) : Statement (.ldF x) := fun _ => by
  simp [encode, decodeWord, select, selectClassF]

theorem ldB (x : Reg) : Statement (.ldB x) := fun _ => by
  simp [encode, decodeWord, select, selectClassF]

theorem stRegs (count : Nat) : Statement (.stRegs count) := fun h => by
  have hk : count ≤ 15 := of_decide_eq_true h
  simp [encode, decodeWord, select, selectClassF, nibbleOfNat_toNat hk]

theorem ldRegs (count : Nat) : Statement (.ldRegs count) := fun h => by
  have hk : count ≤ 15 := of_decide_eq_true h
  simp [encode, decodeWord, select, selectClassF, nibbleOfNat_toNat hk]

end Sys2Proof.Laws.Encoding
end

