-- ==== Sys2Proof/Laws/State.lean ====
section
/-! SUPPORT. The fields of the state after each named update, one lemma per field, and what each shared operation
answers. -/

namespace Sys2Proof.Machine

/-! ## Fields after an update -/

@[simp] theorem State.setV_mem (s : State) (x : Reg) (b : Byte) : (s.setV x b).mem = s.mem := rfl
@[simp] theorem State.setV_v (s : State) (x : Reg) (b : Byte) : (s.setV x b).v = s.v.set x.val b x.isLt := rfl
@[simp] theorem State.setV_i (s : State) (x : Reg) (b : Byte) : (s.setV x b).i = s.i := rfl
@[simp] theorem State.setV_pc (s : State) (x : Reg) (b : Byte) : (s.setV x b).pc = s.pc := rfl
@[simp] theorem State.setV_sp (s : State) (x : Reg) (b : Byte) : (s.setV x b).sp = s.sp := rfl
@[simp] theorem State.setV_stack (s : State) (x : Reg) (b : Byte) : (s.setV x b).stack = s.stack := rfl
@[simp] theorem State.setV_dt (s : State) (x : Reg) (b : Byte) : (s.setV x b).dt = s.dt := rfl
@[simp] theorem State.setV_st (s : State) (x : Reg) (b : Byte) : (s.setV x b).st = s.st := rfl
@[simp] theorem State.setV_keys (s : State) (x : Reg) (b : Byte) : (s.setV x b).keys = s.keys := rfl
@[simp] theorem State.setV_fb (s : State) (x : Reg) (b : Byte) : (s.setV x b).fb = s.fb := rfl
@[simp] theorem State.setV_halt (s : State) (x : Reg) (b : Byte) : (s.setV x b).halt = s.halt := rfl
@[simp] theorem State.setV_draws (s : State) (x : Reg) (b : Byte) : (s.setV x b).draws = s.draws := rfl
@[simp] theorem State.setV_font (s : State) (x : Reg) (b : Byte) : (s.setV x b).font = s.font := rfl

@[simp] theorem State.setI_mem (s : State) (w : Word) : (s.setI w).mem = s.mem := rfl
@[simp] theorem State.setI_v (s : State) (w : Word) : (s.setI w).v = s.v := rfl
@[simp] theorem State.setI_i (s : State) (w : Word) : (s.setI w).i = w := rfl
@[simp] theorem State.setI_pc (s : State) (w : Word) : (s.setI w).pc = s.pc := rfl
@[simp] theorem State.setI_sp (s : State) (w : Word) : (s.setI w).sp = s.sp := rfl
@[simp] theorem State.setI_stack (s : State) (w : Word) : (s.setI w).stack = s.stack := rfl
@[simp] theorem State.setI_dt (s : State) (w : Word) : (s.setI w).dt = s.dt := rfl
@[simp] theorem State.setI_st (s : State) (w : Word) : (s.setI w).st = s.st := rfl
@[simp] theorem State.setI_keys (s : State) (w : Word) : (s.setI w).keys = s.keys := rfl
@[simp] theorem State.setI_fb (s : State) (w : Word) : (s.setI w).fb = s.fb := rfl
@[simp] theorem State.setI_halt (s : State) (w : Word) : (s.setI w).halt = s.halt := rfl
@[simp] theorem State.setI_draws (s : State) (w : Word) : (s.setI w).draws = s.draws := rfl
@[simp] theorem State.setI_font (s : State) (w : Word) : (s.setI w).font = s.font := rfl

@[simp] theorem State.timerTick_mem (s : State) : (s.timerTick).mem = s.mem := rfl
@[simp] theorem State.timerTick_v (s : State) : (s.timerTick).v = s.v := rfl
@[simp] theorem State.timerTick_i (s : State) : (s.timerTick).i = s.i := rfl
@[simp] theorem State.timerTick_pc (s : State) : (s.timerTick).pc = s.pc := rfl
@[simp] theorem State.timerTick_sp (s : State) : (s.timerTick).sp = s.sp := rfl
@[simp] theorem State.timerTick_stack (s : State) : (s.timerTick).stack = s.stack := rfl
@[simp] theorem State.timerTick_dt (s : State) : (s.timerTick).dt = tickDown s.dt := rfl
@[simp] theorem State.timerTick_st (s : State) : (s.timerTick).st = tickDown s.st := rfl
@[simp] theorem State.timerTick_keys (s : State) : (s.timerTick).keys = s.keys := rfl
@[simp] theorem State.timerTick_fb (s : State) : (s.timerTick).fb = s.fb := rfl
@[simp] theorem State.timerTick_halt (s : State) : (s.timerTick).halt = s.halt := rfl
@[simp] theorem State.timerTick_draws (s : State) : (s.timerTick).draws = s.draws := rfl
@[simp] theorem State.timerTick_font (s : State) : (s.timerTick).font = s.font := rfl

@[simp] theorem State.resultThenFlag_mem (s : State) (x : Reg) (b : Byte) (flag : Bool) : (s.resultThenFlag x b flag).mem = s.mem := rfl
@[simp] theorem State.resultThenFlag_i (s : State) (x : Reg) (b : Byte) (flag : Bool) : (s.resultThenFlag x b flag).i = s.i := rfl
@[simp] theorem State.resultThenFlag_pc (s : State) (x : Reg) (b : Byte) (flag : Bool) : (s.resultThenFlag x b flag).pc = s.pc := rfl
@[simp] theorem State.resultThenFlag_sp (s : State) (x : Reg) (b : Byte) (flag : Bool) : (s.resultThenFlag x b flag).sp = s.sp := rfl
@[simp] theorem State.resultThenFlag_stack (s : State) (x : Reg) (b : Byte) (flag : Bool) : (s.resultThenFlag x b flag).stack = s.stack := rfl
@[simp] theorem State.resultThenFlag_dt (s : State) (x : Reg) (b : Byte) (flag : Bool) : (s.resultThenFlag x b flag).dt = s.dt := rfl
@[simp] theorem State.resultThenFlag_st (s : State) (x : Reg) (b : Byte) (flag : Bool) : (s.resultThenFlag x b flag).st = s.st := rfl
@[simp] theorem State.resultThenFlag_keys (s : State) (x : Reg) (b : Byte) (flag : Bool) : (s.resultThenFlag x b flag).keys = s.keys := rfl
@[simp] theorem State.resultThenFlag_fb (s : State) (x : Reg) (b : Byte) (flag : Bool) : (s.resultThenFlag x b flag).fb = s.fb := rfl
@[simp] theorem State.resultThenFlag_halt (s : State) (x : Reg) (b : Byte) (flag : Bool) : (s.resultThenFlag x b flag).halt = s.halt := rfl
@[simp] theorem State.resultThenFlag_draws (s : State) (x : Reg) (b : Byte) (flag : Bool) : (s.resultThenFlag x b flag).draws = s.draws := rfl
@[simp] theorem State.resultThenFlag_font (s : State) (x : Reg) (b : Byte) (flag : Bool) : (s.resultThenFlag x b flag).font = s.font := rfl

@[simp] theorem State.flagThenResult_mem (s : State) (x : Reg) (b : Byte) (flag : Bool) : (s.flagThenResult x b flag).mem = s.mem := rfl
@[simp] theorem State.flagThenResult_i (s : State) (x : Reg) (b : Byte) (flag : Bool) : (s.flagThenResult x b flag).i = s.i := rfl
@[simp] theorem State.flagThenResult_pc (s : State) (x : Reg) (b : Byte) (flag : Bool) : (s.flagThenResult x b flag).pc = s.pc := rfl
@[simp] theorem State.flagThenResult_sp (s : State) (x : Reg) (b : Byte) (flag : Bool) : (s.flagThenResult x b flag).sp = s.sp := rfl
@[simp] theorem State.flagThenResult_stack (s : State) (x : Reg) (b : Byte) (flag : Bool) : (s.flagThenResult x b flag).stack = s.stack := rfl
@[simp] theorem State.flagThenResult_dt (s : State) (x : Reg) (b : Byte) (flag : Bool) : (s.flagThenResult x b flag).dt = s.dt := rfl
@[simp] theorem State.flagThenResult_st (s : State) (x : Reg) (b : Byte) (flag : Bool) : (s.flagThenResult x b flag).st = s.st := rfl
@[simp] theorem State.flagThenResult_keys (s : State) (x : Reg) (b : Byte) (flag : Bool) : (s.flagThenResult x b flag).keys = s.keys := rfl
@[simp] theorem State.flagThenResult_fb (s : State) (x : Reg) (b : Byte) (flag : Bool) : (s.flagThenResult x b flag).fb = s.fb := rfl
@[simp] theorem State.flagThenResult_halt (s : State) (x : Reg) (b : Byte) (flag : Bool) : (s.flagThenResult x b flag).halt = s.halt := rfl
@[simp] theorem State.flagThenResult_draws (s : State) (x : Reg) (b : Byte) (flag : Bool) : (s.flagThenResult x b flag).draws = s.draws := rfl
@[simp] theorem State.flagThenResult_font (s : State) (x : Reg) (b : Byte) (flag : Bool) : (s.flagThenResult x b flag).font = s.font := rfl

@[simp] theorem State.writeBytes_mem (s : State) (a : Nat) (bs : List Byte) : (s.writeBytes a bs).mem = s.mem.writeBytes s.font a bs := rfl
@[simp] theorem State.writeBytes_v (s : State) (a : Nat) (bs : List Byte) : (s.writeBytes a bs).v = s.v := rfl
@[simp] theorem State.writeBytes_i (s : State) (a : Nat) (bs : List Byte) : (s.writeBytes a bs).i = s.i := rfl
@[simp] theorem State.writeBytes_pc (s : State) (a : Nat) (bs : List Byte) : (s.writeBytes a bs).pc = s.pc := rfl
@[simp] theorem State.writeBytes_sp (s : State) (a : Nat) (bs : List Byte) : (s.writeBytes a bs).sp = s.sp := rfl
@[simp] theorem State.writeBytes_stack (s : State) (a : Nat) (bs : List Byte) : (s.writeBytes a bs).stack = s.stack := rfl
@[simp] theorem State.writeBytes_dt (s : State) (a : Nat) (bs : List Byte) : (s.writeBytes a bs).dt = s.dt := rfl
@[simp] theorem State.writeBytes_st (s : State) (a : Nat) (bs : List Byte) : (s.writeBytes a bs).st = s.st := rfl
@[simp] theorem State.writeBytes_keys (s : State) (a : Nat) (bs : List Byte) : (s.writeBytes a bs).keys = s.keys := rfl
@[simp] theorem State.writeBytes_fb (s : State) (a : Nat) (bs : List Byte) : (s.writeBytes a bs).fb = s.fb := rfl
@[simp] theorem State.writeBytes_halt (s : State) (a : Nat) (bs : List Byte) : (s.writeBytes a bs).halt = s.halt := rfl
@[simp] theorem State.writeBytes_draws (s : State) (a : Nat) (bs : List Byte) : (s.writeBytes a bs).draws = s.draws := rfl
@[simp] theorem State.writeBytes_font (s : State) (a : Nat) (bs : List Byte) : (s.writeBytes a bs).font = s.font := rfl

/-! ## Registers -/

/-- A register after a write: the written value, or as before (R21). -/
@[simp] theorem State.getV_setV (s : State) (x r : Reg) (b : Byte) :
    (s.setV x b).getV r = if r = x then b else s.getV r := by
  simp only [State.getV, State.setV]
  by_cases h : r = x
  · subst h; simp
  · rw [if_neg h]
    have : x.val ≠ r.val := fun hv => h (Fin.ext hv.symm)
    simp [this]

theorem State.getV_resultThenFlag (s : State) (x r : Reg) (b : Byte) (flag : Bool) :
    (s.resultThenFlag x b flag).getV r = if r = flagReg then flagByte flag else if r = x then b else s.getV r := by
  simp [State.resultThenFlag]

theorem State.getV_flagThenResult (s : State) (x r : Reg) (b : Byte) (flag : Bool) :
    (s.flagThenResult x b flag).getV r = if r = x then b else if r = flagReg then flagByte flag else s.getV r := by
  simp [State.flagThenResult]

/-- Two states with the same registers one by one have the same register file. -/
theorem v_ext {s t : State} (h : ∀ r, s.getV r = t.getV r) : s.v = t.v := by
  apply Vector.ext; intro k hk; exact h ⟨k, hk⟩

/-! ## The program counter -/

theorem advance_toNat (p : Nat) : (advance p).toNat = if p + 2 ≤ 0xFFF then p + 2 else 0x200 := by
  unfold advance; split
  · rw [BitVec.toNat_ofNat]; omega
  · rfl

theorem advance_bounds (p : Nat) : 2 ≤ (advance p).toNat ∧ (advance p).toNat ≤ 0xFFF := by
  rw [advance_toNat]; split <;> omega

@[simp] theorem addrOf_toNat (nnn : BitVec 12) : (addrOf nnn).toNat = nnn.toNat := by
  have := nnn.isLt
  simp only [addrOf, BitVec.toNat_setWidth]; omega

@[simp] theorem zext16_toNat (b : Byte) : (zext16 b).toNat = b.toNat := by
  have := b.isLt
  simp only [zext16, BitVec.toNat_setWidth]; omega

theorem tickDown_toNat (t : Byte) : (tickDown t).toNat = t.toNat - 1 := by
  unfold tickDown; split
  · rename_i h; subst h; rfl
  · rename_i h
    have h0 : t.toNat ≠ 0 := fun h' => h (BitVec.eq_of_toNat_eq h')
    have := t.isLt
    rw [BitVec.toNat_sub]
    change (2 ^ 8 - 1 + t.toNat) % 2 ^ 8 = _
    omega

/-! ## What a shared operation answers -/

theorem State.complete_eq (s : State) (o : PcOutcome) : s.complete o = .next { s with pc := newPc s.pc o } := rfl

theorem State.raise_eq (s : State) (f : Fault) : s.raise f = .next { s with halt := some f } := rfl

/-- The bounds check answers what its body answers, or takes MemoryOutOfBounds. -/
theorem State.withRange_cases (s : State) (count : Nat) (body : Outcome) :
    (rangeInMem s.i count = true ∧ s.withRange count body = body) ∨
    (rangeInMem s.i count = false ∧ s.withRange count body = .next { s with halt := some (.memoryOutOfBounds s.i count) }) := by
  unfold State.withRange
  cases h : rangeInMem s.i count
  · exact .inr ⟨rfl, rfl⟩
  · exact .inl ⟨rfl, rfl⟩

theorem rangeInMem_iff (first : Word) (count : Nat) :
    rangeInMem first count = true ↔ count = 0 ∨ first.toNat + count - 1 ≤ 0xFFF := by
  simp [rangeInMem]

/-- The key check hands its body the flag of the key, or takes KeyIndexOutOfRange. -/
theorem State.withKey_cases (s : State) (index : Byte) (body : Bool → Outcome) :
    (∃ h : index.toNat < 16, s.withKey index body = body (s.keys[index.toNat]'h)) ∨
    (16 ≤ index.toNat ∧ s.withKey index body = .next { s with halt := some (.keyIndexOutOfRange index) }) := by
  unfold State.withKey
  by_cases h : index.toNat < 16
  · exact .inl ⟨h, dif_pos h⟩
  · exact .inr ⟨by omega, dif_neg h⟩

theorem lowestKey_none {keys : Vector Bool 16} : lowestKey keys = none ↔ ∀ k : Fin 16, keys[k] = false := by
  simp [lowestKey]

theorem lowestKey_some {keys : Vector Bool 16} {k : Fin 16} :
    lowestKey keys = some k ↔ keys[k] = true ∧ ∀ j : Fin 16, j < k → keys[j] = false := by
  unfold lowestKey
  constructor
  · intro h
    refine ⟨by simpa using List.find?_some h, fun j hj => ?_⟩
    obtain ⟨-, as, bs, hab, hpre⟩ := List.find?_eq_some_iff_append.1 h
    have hlt : (List.finRange 16).Pairwise (· < ·) := List.pairwise_lt_finRange 16
    have hmem : j ∈ List.finRange 16 := List.mem_finRange j
    rw [hab] at hlt hmem
    rcases List.mem_append.1 hmem with hm | hm
    · simpa using hpre j hm
    · rw [List.pairwise_append] at hlt
      rcases List.mem_cons.1 hm with rfl | hm
      · exact absurd hj (lt_irrefl _)
      · exact absurd ((List.pairwise_cons.1 hlt.2.1).1 j hm) (not_lt.2 hj.le)
  · rintro ⟨hk, hlow⟩
    cases h : (List.finRange 16).find? fun k => keys[k] with
    | none => simp only [List.find?_eq_none] at h; exact absurd hk (h k (List.mem_finRange k))
    | some m =>
      have hm : keys[m] = true := by simpa using List.find?_some h
      obtain ⟨-, as, bs, hab, hpre⟩ := List.find?_eq_some_iff_append.1 h
      have hlt : (List.finRange 16).Pairwise (· < ·) := List.pairwise_lt_finRange 16
      have hmem : k ∈ List.finRange 16 := List.mem_finRange k
      rw [hab] at hlt hmem
      have hle : m ≤ k := by
        rcases List.mem_append.1 hmem with hmm | hmm
        · exact absurd hk (by simpa using hpre k hmm)
        · rw [List.pairwise_append] at hlt
          rcases List.mem_cons.1 hmm with rfl | hmm
          · exact le_refl _
          · exact ((List.pairwise_cons.1 hlt.2.1).1 k hmm).le
      rcases lt_or_eq_of_le hle with hlt' | heq
      · rw [hlow m hlt'] at hm; exact absurd hm (by decide)
      · rw [heq]

end Sys2Proof.Machine
end

