-- ==== Sys2Proof/Laws/Sprite.lean ====
section
/-! SUPPORT. Laws of the sprite compositor and of the register load: what a row mask covers, and the loops of Machine/Sprite
and Machine/IndexMemory cell by cell and register by register. -/

namespace Sys2Proof.Machine

/-! ## The mask of one sprite row -/

theorem getLsbD_one_shiftLeft {k c : Nat} (hc : c < 64) : (1#64 <<< k).getLsbD c = decide (k = c) := by
  rw [BitVec.getLsbD_shiftLeft, BitVec.getLsbD_one]
  by_cases h : k = c
  · subst h; simp [hc]
  · rcases Nat.lt_or_ge c k with hlt | hge
    · simp [hlt, h]
    · simp [hc, h]; omega

theorem getLsbD_foldl_mask (ox : Nat) (row : Byte) (c : Nat) (hc : c < 64) (bs : List Nat) (m : BitVec 64) :
    (bs.foldl (fun m b => if row.getLsbD (7 - b) then m ||| (1#64 <<< ((ox + b) % 64)) else m) m).getLsbD c = true ↔
      m.getLsbD c = true ∨ ∃ b ∈ bs, (ox + b) % 64 = c ∧ row.getLsbD (7 - b) = true := by
  induction bs generalizing m with
  | nil => simp
  | cons b bs ih =>
    rw [List.foldl_cons, ih]
    cases hb : row.getLsbD (7 - b)
    · simp [hb]
    · simp only [if_true, BitVec.getLsbD_or, getLsbD_one_shiftLeft hc, Bool.or_eq_true, decide_eq_true_eq, List.mem_cons,
        exists_eq_or_imp, hb, and_true]
      tauto

/-- Column `c` of a row mask is covered exactly when a 1 bit of the row, counted from the most significant end, stands
there (R173). -/
theorem spriteMask_getLsbD (ox : Nat) (row : Byte) (c : Nat) (hc : c < 64) :
    (spriteMask ox row).getLsbD c = true ↔ ∃ b : Fin 8, (ox + b.val) % 64 = c ∧ row.getLsbD (7 - b.val) = true := by
  rw [spriteMask, getLsbD_foldl_mask ox row c hc]
  constructor
  · rintro (h | ⟨b, hb, h⟩)
    · simp at h
    · exact ⟨⟨b, List.mem_range.1 hb⟩, h⟩
  · rintro ⟨b, h⟩; exact .inr ⟨b.val, List.mem_range.2 b.isLt, h⟩

theorem collides_iff (row mask : BitVec 64) :
    collides row mask = true ↔ ∃ c : Nat, c < 64 ∧ row.getLsbD c = true ∧ mask.getLsbD c = true := by
  unfold collides
  rw [decide_eq_true_iff]
  constructor
  · intro h
    by_contra hn
    apply h
    apply BitVec.eq_of_getLsbD_eq
    intro c hc
    rw [BitVec.getLsbD_and, BitVec.getLsbD_zero]
    cases h1 : row.getLsbD c <;> cases h2 : mask.getLsbD c <;> simp
    exact hn ⟨c, hc, h1, h2⟩
  · rintro ⟨c, hc, h1, h2⟩ h
    have := congrArg (fun m => m.getLsbD c) h
    simp [h1, h2] at this

/-! ## One row, all rows -/

theorem cell_of_lt (fb : Framebuffer) {r : Nat} (c : Nat) (hr : r < 32) : cell fb r c = fb[r].getLsbD c := dif_pos hr

theorem cell_drawRow (ox r' : Nat) (row : Byte) (p : Framebuffer × Bool) (r c : Nat) (hr : r < 32) :
    cell (drawRow ox r' row p).1 r c
      = (cell p.1 r c ^^ (decide (r = r') && (spriteMask ox row).getLsbD c)) := by
  unfold drawRow
  split
  · rename_i h
    rw [cell_of_lt _ _ hr, cell_of_lt _ _ hr]
    by_cases he : r = r'
    · subst he; simp
    · simp [he, Ne.symm he]
  · rename_i h
    have : r ≠ r' := by omega
    simp [this]

theorem hit_drawRow (ox r' : Nat) (row : Byte) (p : Framebuffer × Bool) :
    (drawRow ox r' row p).2 = true ↔
      p.2 = true ∨ (r' < 32 ∧ ∃ c < 64, cell p.1 r' c = true ∧ (spriteMask ox row).getLsbD c = true) := by
  unfold drawRow
  split
  · rename_i h
    rw [Bool.or_eq_true, collides_iff]
    simp only [h, true_and, cell_of_lt p.1 _ h]
  · rename_i h
    simp [h]

/-- The bit of the sprite over row `r`, column `c`, the rows being those of the list from row `r'` on. -/
def rowsLight (ox r' : Nat) (rows : List Byte) (r c : Nat) : Bool :=
  if h : r' ≤ r ∧ r - r' < rows.length then (spriteMask ox (rows[r - r']'h.2)).getLsbD c else false

theorem rowsLight_cons (ox r' : Nat) (row : Byte) (rows : List Byte) (r c : Nat) :
    rowsLight ox r' (row :: rows) r c
      = if r = r' then (spriteMask ox row).getLsbD c else rowsLight ox (r' + 1) rows r c := by
  unfold rowsLight
  by_cases h : r = r'
  · subst h; simp
  · rw [if_neg h]
    by_cases h2 : r' + 1 ≤ r ∧ r - (r' + 1) < rows.length
    · rw [dif_pos h2, dif_pos (by simp only [List.length_cons]; omega), List.getElem_cons, dif_neg (by omega)]
      congr 1
    · rw [dif_neg h2, dif_neg (by simp only [List.length_cons]; omega)]

theorem rowsLight_self (ox r' : Nat) (rows : List Byte) (c : Nat) : rowsLight ox (r' + 1) rows r' c = false := by
  unfold rowsLight; rw [dif_neg (by omega)]

/-- Every cell after the rows are drawn: XOR with the sprite's bit over it (R172, R175). -/
theorem cell_drawRows (ox r' : Nat) (rows : List Byte) (p : Framebuffer × Bool) (r c : Nat) (hr : r < 32) :
    cell (drawRows ox r' rows p).1 r c = (cell p.1 r c ^^ rowsLight ox r' rows r c) := by
  induction rows generalizing r' p with
  | nil => simp [drawRows, rowsLight]
  | cons row rows ih =>
    rw [drawRows, ih, cell_drawRow _ _ _ _ _ _ hr, rowsLight_cons]
    by_cases h : r = r'
    · subst h; simp [rowsLight_self]
    · simp [h]

/-- The collision after the rows are drawn: some lit cell lies under a 1 bit (R174). -/
theorem hit_drawRows (ox r' : Nat) (rows : List Byte) (p : Framebuffer × Bool) :
    (drawRows ox r' rows p).2 = true ↔
      p.2 = true ∨ ∃ r c, r < 32 ∧ c < 64 ∧ cell p.1 r c = true ∧ rowsLight ox r' rows r c = true := by
  induction rows generalizing r' p with
  | nil => simp [drawRows, rowsLight]
  | cons row rows ih =>
    rw [drawRows, ih, hit_drawRow]
    constructor
    · rintro ((h | ⟨hr, c, hc, h1, h2⟩) | ⟨r, c, hr, hc, h1, h2⟩)
      · exact .inl h
      · exact .inr ⟨r', c, hr, hc, h1, by rw [rowsLight_cons, if_pos rfl]; exact h2⟩
      · have hne : r ≠ r' := by rintro rfl; rw [rowsLight_self] at h2; exact absurd h2 (by decide)
        rw [cell_drawRow _ _ _ _ _ _ hr] at h1
        refine .inr ⟨r, c, hr, hc, by simpa [hne] using h1, by rw [rowsLight_cons, if_neg hne]; exact h2⟩
    · rintro (h | ⟨r, c, hr, hc, h1, h2⟩)
      · exact .inl (.inl h)
      · rw [rowsLight_cons] at h2
        by_cases hne : r = r'
        · subst hne; rw [if_pos rfl] at h2
          exact .inl (.inr ⟨hr, c, hc, h1, h2⟩)
        · rw [if_neg hne] at h2
          exact .inr ⟨r, c, hr, hc, by rw [cell_drawRow _ _ _ _ _ _ hr]; simpa [hne] using h1, h2⟩

/-- The sprite's bits, read from memory (R172). -/
theorem rowsLight_readBytes (s : State) (base ox oy height r c : Nat) (hc : c < 64) :
    rowsLight ox oy (s.readBytes base height) r c = true ↔ spriteLights s base ox oy height r c := by
  unfold rowsLight spriteLights
  split
  · rename_i h
    rw [spriteMask_getLsbD _ _ _ hc, State.getElem_readBytes]
    simp only [State.readBytes_length] at h
    constructor
    · intro hb; exact ⟨h.1, by omega, hb⟩
    · rintro ⟨-, -, hb⟩; exact hb
  · rename_i h
    simp only [State.readBytes_length] at h
    constructor
    · intro hb; exact absurd hb (by decide)
    · rintro ⟨h1, h2, -⟩; exact absurd ⟨h1, by omega⟩ h

/-- Two framebuffers with the same cells are the same. -/
theorem fb_ext {fb fb' : Framebuffer} (h : ∀ r c, r < 32 → c < 64 → cell fb r c = cell fb' r c) : fb = fb' := by
  apply Vector.ext; intro r hr
  apply BitVec.eq_of_getLsbD_eq; intro c hc
  have := h r c hr hc
  rwa [cell_of_lt _ _ hr, cell_of_lt _ _ hr] at this

theorem cell_darkFb (r c : Nat) : cell darkFb r c = false := by
  unfold cell darkFb; split <;> simp

/-! ## The register load -/

theorem loadRegs_getElem (v : Vector Byte 16) (k : Nat) (bs : List Byte) (j : Nat) (hj : j < 16) :
    (loadRegs v k bs)[j] = if h : k ≤ j ∧ j - k < bs.length then bs[j - k]'h.2 else v[j] := by
  induction bs generalizing v k with
  | nil => simp [loadRegs]
  | cons b bs ih =>
    have hl : (b :: bs).length = bs.length + 1 := rfl
    rw [loadRegs, ih]
    by_cases hkj : k = j
    · subst hkj
      rw [dif_neg (by omega), dif_pos (by omega)]; simp
    · by_cases h : k + 1 ≤ j ∧ j - (k + 1) < bs.length
      · rw [dif_pos h, dif_pos (by omega), List.getElem_cons, dif_neg (by omega)]
        congr 1
      · have h' : ¬(k ≤ j ∧ j - k < (b :: bs).length) := by omega
        rw [dif_neg h, dif_neg h']
        by_cases hk : k < 16
        · simp [hk, hkj]
        · simp [hk]

end Sys2Proof.Machine
end

