-- ==== Sys2Proof/Laws/Step.lean ====
section
/-! SUPPORT. What a cycle can do, said once: the inversion of cycleWith, and the end of a cycle field by field. -/

namespace Sys2Proof.Machine

theorem step_eq (s : State) : step s = cycleWith true s := rfl

theorem fetch_eq (s : State) :
    fetch s = if s.pc.toNat + 1 ≤ 0xFFF then some (wordAt s) else none := by
  unfold fetch
  split
  · congr 1
    apply BitVec.eq_of_toNat_eq
    have h1 := (s.read s.pc.toNat).isLt
    have h2 := (s.read (s.pc.toNat + 1)).isLt
    rw [wordOfBytes_toNat, wordAt, BitVec.toNat_ofNat]; omega
  · rfl

/-- A cycle that answers a next state is one of three: the fetch faults, the word is unrecognised, or an instruction
answers `u` and the cycle ends on it (R90, R221). -/
theorem cycleWith_next {tick : Bool} {s t : State} (h : cycleWith tick s = .next t) :
    s.halt = none ∧
      ((0xFFF < s.pc.toNat + 1 ∧ t = { s with halt := some (.fetchOutOfBounds s.pc) }) ∨
       (s.pc.toNat + 1 ≤ 0xFFF ∧ decodeWord (wordAt s) = none ∧
          t = { s with halt := some (.unrecognizedInstruction (wordAt s) s.pc) }) ∨
       (∃ i u, s.pc.toNat + 1 ≤ 0xFFF ∧ decodeWord (wordAt s) = some i ∧ exec i s = .next u ∧ t = u.endCycle tick)) := by
  unfold cycleWith at h
  cases hh : s.halt with
  | some f => rw [hh] at h; cases h
  | none =>
    rw [hh] at h
    refine ⟨rfl, ?_⟩
    simp only [fetch_eq] at h
    by_cases hp : s.pc.toNat + 1 ≤ 0xFFF
    · simp only [if_pos hp] at h
      cases hd : decodeWord (wordAt s) with
      | none =>
        simp only [executeWord, hd, State.raise_eq, mapNext, State.endCycle, Host.Outcome.next.injEq] at h
        exact .inr (.inl ⟨hp, rfl, h.symm⟩)
      | some i =>
        simp only [executeWord, hd] at h
        cases he : exec i s with
        | next u =>
          rw [he] at h
          simp only [mapNext, Host.Outcome.next.injEq] at h
          exact .inr (.inr ⟨i, u, hp, rfl, he, h.symm⟩)
        | fault r => rw [he] at h; cases h
        | refused r => rw [he] at h; cases h
    · simp only [if_neg hp, State.raise_eq, Host.Outcome.next.injEq] at h
      exact .inl ⟨by omega, h.symm⟩

/-- A cycle that runs an instruction answers what the instruction answers, ended (R90). -/
theorem cycleWith_runs {tick : Bool} {s : State} {i : Instr} (h : s.runs i) :
    cycleWith tick s = mapNext (State.endCycle tick) (exec i s) := by
  obtain ⟨hh, hp, hd⟩ := h
  simp only [cycleWith, hh, fetch_eq, if_pos hp, executeWord, hd]

theorem State.endCycle_halted {tick : Bool} {s : State} {f : Fault} (h : s.halt = some f) : s.endCycle tick = s := by
  simp [State.endCycle, h]

theorem State.endCycle_running {tick : Bool} {s : State} (h : s.halt = none) :
    s.endCycle tick = if tick then s.timerTick else s := by
  simp [State.endCycle, h]

@[simp] theorem State.endCycle_halt (tick : Bool) (s : State) : (s.endCycle tick).halt = s.halt := by
  unfold State.endCycle; split
  · rfl
  · cases tick <;> rfl

/-- The end of a cycle changes the timers at most. -/
theorem State.endCycle_frame (tick : Bool) (s : State) :
    s.endCycle tick = { s with dt := (s.endCycle tick).dt, st := (s.endCycle tick).st } := by
  unfold State.endCycle; split
  · rfl
  · cases tick <;> rfl

end Sys2Proof.Machine
end

