-- ==== Sys2Proof/Tests/Slice0.lean ====
section
/-! SUPPORT. The model's own tests: the WellFormed checks, one word of every row written out from the spec, one-step
vectors of spec/95_test_vectors.md (each names its vector), and a witness for the hypotheses of every statement. -/

namespace Sys2Proof.Tests

open Sys2Proof Sys2Proof.Machine

/-! ## Helpers -/

/-- The reset state with some registers set. -/
def withRegs (l : List (Reg × Byte)) : State := l.foldl (fun s p => s.setV p.1 p.2) State.reset

/-- `s` with some bytes of memory set. -/
def withMem (s : State) (a : Nat) (bs : List Byte) : State := s.writeBytes a bs

/-- A FONT that is not the default. -/
def otherFont : Font := Vector.replicate 16 (Vector.replicate 5 0x12#8)

/-- `s` with one key pressed. -/
def withKeyDown (s : State) (k : Fin 16) : State := { s with keys := s.keys.set k.val true }

/-- What the step answers when the word `w` stands at pc. -/
def after (s : State) (w : Nat) : Option State :=
  match step (s.withFetchWord 16 w) with
  | .next t => some t
  | _ => none

/-- The next state of an instruction. -/
def ran (i : Instr) (s : State) : Option State :=
  match exec i s with
  | .next t => some t
  | _ => none

/-! ## WellFormed refuses what no word encodes -/

theorem test_wf_height : (Instr.drw 0 1 16).wellFormed = false ∧ (Instr.drw 0 1 15).wellFormed = true := by decide
theorem test_wf_store_count : (Instr.stRegs 16).wellFormed = false ∧ (Instr.stRegs 15).wellFormed = true := by decide
theorem test_wf_load_count : (Instr.ldRegs 16).wellFormed = false ∧ (Instr.ldRegs 15).wellFormed = true := by decide

/-! ## Decoding: a word of every row, written out from the encodings of spec/30_encoding.md -/

-- 0000 0000 1110 0000 and 0000 0000 1110 1110
theorem test_decode_system : decodeWord 0b0000000011100000 = some .cls ∧ decodeWord 0b0000000011101110 = some .ret := by decide
-- 0001 nnn, 0010 nnn, 1011 nnn
theorem test_decode_flow : decodeWord 0b0001101010111100 = some (.jp 0xABC) ∧
    decodeWord 0b0010001000001010 = some (.call 0x20A) ∧ decodeWord 0b1011001100000000 = some (.jpV0 0x300) := by decide
-- 0011 x kk, 0100 x kk, 0101 x y 0, 1001 x y 0
theorem test_decode_skips : decodeWord 0b0011101000101100 = some (.seImm 0xA 0x2C) ∧
    decodeWord 0b0100101000101100 = some (.sneImm 0xA 0x2C) ∧ decodeWord 0b0101000100100000 = some (.seReg 1 2) ∧
    decodeWord 0b1001000100100000 = some (.sneReg 1 2) := by decide
-- 0110 x kk, 0111 x kk, 1100 x kk
theorem test_decode_immediates : decodeWord 0b0110101000101100 = some (.ldImm 0xA 0x2C) ∧
    decodeWord 0b0111001100100000 = some (.addImm 3 0x20) ∧ decodeWord 0b1100001100001111 = some (.rnd 3 0x0F) := by decide
-- 1000 x y n
theorem test_decode_alu_moves : decodeWord 0b1000001000010000 = some (.ldReg 2 1) ∧
    decodeWord 0b1000000000010001 = some (.or 0 1) ∧ decodeWord 0b1000000000010010 = some (.and 0 1) ∧
    decodeWord 0b1000000000010011 = some (.xor 0 1) := by decide
theorem test_decode_alu_flags : decodeWord 0b1000000000010100 = some (.addReg 0 1) ∧
    decodeWord 0b1000000000010101 = some (.sub 0 1) ∧ decodeWord 0b1000010000000110 = some (.shr 4 0) ∧
    decodeWord 0b1000000100100111 = some (.subn 1 2) ∧ decodeWord 0b1000010000001110 = some (.shl 4 0) := by decide
-- 1010 nnn, 1111 x 0001 1110, 1111 x 0010 1001
theorem test_decode_index : decodeWord 0b1010001011110000 = some (.ldI 0x2F0) ∧
    decodeWord 0b1111000100011110 = some (.addI 1) ∧ decodeWord 0b1111000100101001 = some (.ldF 1) := by decide
-- 1111 x 0011 0011, 1111 x 0101 0101, 1111 x 0110 0101
theorem test_decode_memory : decodeWord 0b1111001100110011 = some (.ldB 3) ∧
    decodeWord 0b1111001101010101 = some (.stRegs 3) ∧ decodeWord 0b1111001101100101 = some (.ldRegs 3) := by decide
-- 1101 x y n
theorem test_decode_sprite : decodeWord 0b1101000000010010 = some (.drw 0 1 2) := by decide
-- 1111 x 0000 0111, 1111 x 0001 0101, 1111 x 0001 1000
theorem test_decode_timers : decodeWord 0b1111001100000111 = some (.ldVxDt 3) ∧
    decodeWord 0b1111000100010101 = some (.ldDtVx 1) ∧ decodeWord 0b1111000100011000 = some (.ldStVx 1) := by decide
-- 1110 x 1001 1110, 1110 x 1010 0001, 1111 x 0000 1010
theorem test_decode_keys : decodeWord 0b1110001010011110 = some (.skp 2) ∧
    decodeWord 0b1110001010100001 = some (.sknp 2) ∧ decodeWord 0b1111001000001010 = some (.ldVxK 2) := by decide
-- the don't-care nibbles of R75 and R79, and 8xy6 with a y
theorem test_decode_dont_care : decodeWord 0x0FE0 = some .cls ∧ decodeWord 0x0AEE = some .ret ∧
    decodeWord 0x512F = some (.seReg 1 2) ∧ decodeWord 0x9127 = some (.sneReg 1 2) ∧
    decodeWord 0x8416 = some (.shr 4 1) := by decide
-- T-C12
theorem test_decode_unrecognized : decodeWord 0x0000 = none ∧ decodeWord 0x00E1 = none ∧ decodeWord 0x0123 = none ∧
    decodeWord 0x8008 = none ∧ decodeWord 0x800F = none ∧ decodeWord 0x812A = none ∧ decodeWord 0xE000 = none ∧
    decodeWord 0xE19F = none ∧ decodeWord 0xF000 = none ∧ decodeWord 0xF175 = none ∧ decodeWord 0xF185 = none ∧
    decodeWord 0xFFFF = none := by decide
-- the bytes in memory order (R70): A2 then F0
theorem test_decode_bytes : decodeBytes [0xA2, 0xF0, 0x12] = .ok (.ldI 0x2F0, [0x12]) ∧
    encodeBytes (.ldI 0x2F0) = [0xA2, 0xF0] := by decide

/-! ## One step: fetch, dispatch, counter update -/

-- T-C14: nothing loaded, the first step from reset
theorem test_reset_first_step :
    step State.reset = .next { State.reset with halt := some (.unrecognizedInstruction 0x0000 0x200) } := rfl
-- T-C3
theorem test_odd_pc_advance : (after { State.reset with pc := 0xFFD } 0x6000).map (·.pc) = some 0xFFF := by decide
-- T-C4, with DT = 4: no tick
theorem test_fetch_fault : (after { State.reset with pc := 0xFFF, dt := 4 } 0x6000).map (fun t => (t.halt, t.pc, t.dt))
    = some (some (.fetchOutOfBounds 0xFFF), 0xFFF, 4) := by decide
-- T-C9
theorem test_skip_wraps : (after { State.reset with pc := 0xFFC } 0x3000).map (·.pc) = some 0x200 := by decide
-- T-C12: no tick
theorem test_unrecognized : (after { State.reset with dt := 4 } 0xE19F).map (fun t => (t.halt, t.pc, t.dt))
    = some (some (.unrecognizedInstruction 0xE19F 0x200), 0x200, 4) := by decide

/-! ## One step: register file and ALU -/

-- T-A1, T-A2
theorem test_ldImm : (after State.reset 0x6A2C).map (·.getV 0xA) = some 0x2C := by decide
-- T-A3
theorem test_addImm : (after (withRegs [(3, 0xF0), (0xF, 7)]) 0x7320).map (fun t => (t.getV 3, t.getV 0xF))
    = some (0x10, 7) := by decide
-- T-A7
theorem test_ldReg : (after (withRegs [(1, 0x7E)]) 0x8210).map (fun t => (t.getV 2, t.getV 1)) = some (0x7E, 0x7E) := by
  decide
-- T-A8
theorem test_or : (after (withRegs [(0, 0xF0), (1, 0x0F), (0xF, 1)]) 0x8011).map (fun t => (t.getV 0, t.getV 0xF))
    = some (0xFF, 1) := by decide
-- T-A9
theorem test_and : (after (withRegs [(0, 0xF0), (1, 0x3C)]) 0x8012).map (·.getV 0) = some 0x30 := by decide
-- T-A10
theorem test_xor : (after (withRegs [(0, 0xF0), (1, 0x3C)]) 0x8013).map (·.getV 0) = some 0xCC := by decide
-- S2
theorem test_addReg_carry : (after (withRegs [(0, 0xFF), (1, 1)]) 0x8014).map (fun t => (t.getV 0, t.getV 0xF, t.pc))
    = some (0, 1, 0x202) := by decide
-- T-A14
theorem test_addReg_flag_destination : (after (withRegs [(0xF, 0xF0), (1, 0x20)]) 0x8F14).map (·.getV 0xF) = some 1 := by
  decide
-- S4
theorem test_sub_borrow : (after (withRegs [(0, 1), (1, 2)]) 0x8015).map (fun t => (t.getV 0, t.getV 0xF))
    = some (0xFF, 0) := by decide
-- T-A17
theorem test_sub_equal : (after (withRegs [(0, 7), (1, 7)]) 0x8015).map (fun t => (t.getV 0, t.getV 0xF))
    = some (0, 1) := by decide
-- T-A22
theorem test_shr : (after (withRegs [(4, 0xFF), (1, 0x12)]) 0x8416).map (fun t => (t.getV 4, t.getV 0xF, t.getV 1))
    = some (0x7F, 1, 0x12) := by decide
-- T-A24
theorem test_shr_flag_destination : (after (withRegs [(0xF, 5)]) 0x8F06).map (·.getV 0xF) = some 2 := by decide
-- T-A27
theorem test_subn : (after (withRegs [(1, 2), (2, 1)]) 0x8127).map (fun t => (t.getV 1, t.getV 0xF)) = some (0xFF, 0) := by
  decide
-- T-A31
theorem test_shl : (after (withRegs [(4, 0x7F), (0xF, 1)]) 0x840E).map (fun t => (t.getV 4, t.getV 0xF)) = some (0xFE, 0) := by
  decide
-- T-A33
theorem test_shl_flag_destination : (after (withRegs [(0xF, 0x81)]) 0x8F0E).map (·.getV 0xF) = some 2 := by decide

/-! ## One step: program counter and call stack -/

-- T-P1
theorem test_jp : (after State.reset 0x1ABC).map (·.pc) = some 0xABC := by decide
-- T-P6
theorem test_call_sixteenth : (after { State.reset with sp := 15 } 0x2300).map (fun t => (t.pc, t.sp, t.stack[15], t.halt))
    = some (0x300, 16, 0x202, none) := by decide
-- T-P7
theorem test_call_overflow : (after { State.reset with sp := 16 } 0x2300).map (fun t => (t.pc, t.sp, t.halt))
    = some (0x200, 16, some (.stackOverflow 0x200)) := by decide
-- T-P10
theorem test_ret : (after { State.reset with sp := 1, pc := 0x300, stack := State.reset.stack.set 0 0x206 } 0x00EE).map
    (fun t => (t.pc, t.sp, t.stack[0])) = some (0x206, 0, 0x206) := by decide
-- T-P11
theorem test_ret_underflow : (after { State.reset with pc := 0x300 } 0x00EE).map (fun t => (t.pc, t.halt))
    = some (0x300, some (.stackUnderflow 0x300)) := by decide
-- T-P14
theorem test_jpV0 : (after (withRegs [(0, 0xFF)]) 0xBFFF).map (·.pc) = some 0x10FE := by decide
-- T-P16, T-P17
theorem test_seImm : (after (withRegs [(0xA, 0x2C)]) 0x3A2C).map (·.pc) = some 0x204 ∧
    (after (withRegs [(0xA, 0x2D)]) 0x3A2C).map (·.pc) = some 0x202 := by decide
-- T-P18, T-P19
theorem test_sneImm : (after (withRegs [(0xA, 0x2C)]) 0x4A2C).map (·.pc) = some 0x202 ∧
    (after (withRegs [(0xA, 0x2D)]) 0x4A2C).map (·.pc) = some 0x204 := by decide
-- T-P20, T-P22
theorem test_seReg : (after (withRegs [(1, 7), (2, 7)]) 0x5120).map (·.pc) = some 0x204 ∧
    (after (withRegs [(1, 7), (2, 8)]) 0x5120).map (·.pc) = some 0x202 := by decide
-- T-P24, T-P26
theorem test_sneReg : (after (withRegs [(1, 7), (2, 8)]) 0x9120).map (·.pc) = some 0x204 ∧
    (after (withRegs [(1, 7), (2, 7)]) 0x9120).map (·.pc) = some 0x202 := by decide

/-! ## One step: index register and memory -/

-- S11
theorem test_ldI : (after State.reset 0xA2F0).map (fun t => (t.i, t.pc)) = some (0x2F0, 0x202) := by decide
-- T-M5
theorem test_addI : (after { withRegs [(1, 2), (0xF, 5)] with i := 0xFFFF } 0xF11E).map (fun t => (t.i, t.getV 0xF))
    = some (1, 5) := by decide
-- T-M10
theorem test_ldF : (after (withRegs [(1, 0xFF)]) 0xF129).map (·.i) = some 0x04FB := by decide
-- S8
theorem test_ldB : (after { withRegs [(3, 156)] with i := 0x300 } 0xF333).map (fun t => (t.readBytes 0x300 3, t.i))
    = some ([1, 5, 6], 0x300) := by decide
-- T-M15
theorem test_ldB_out_of_bounds : (after { withRegs [(3, 100)] with i := 0xFFE } 0xF333).map
    (fun t => (t.readBytes 0xFFE 2, t.pc, t.halt)) = some ([0, 0], 0x200, some (.memoryOutOfBounds 0xFFE 3)) := by
  decide
-- T-M17
theorem test_stRegs : (after { withRegs [(0, 0x11), (1, 0x22), (2, 0x33), (3, 0x44)] with i := 0x300 } 0xF355).map
    (fun t => (t.readBytes 0x300 4, t.i)) = some ([0x11, 0x22, 0x33, 0], 0x300) := by decide
-- T-M21
theorem test_stRegs_out_of_bounds : (after { withRegs [(0, 0x77), (1, 0x88)] with i := 0xFFF } 0xF255).map
    (fun t => (t.read 0xFFF, t.halt)) = some (0, some (.memoryOutOfBounds 0xFFF 2)) := by decide
-- T-M24
theorem test_ldRegs : (after { withMem (withRegs [(3, 0x99)]) 0x300 [0x11, 0x22, 0x33, 0x44] with i := 0x300 } 0xF365).map
    (fun t => (t.getV 0, t.getV 1, t.getV 2, t.getV 3)) = some (0x11, 0x22, 0x33, 0x99) := by decide
-- T-M28
theorem test_ldRegs_out_of_bounds : (after { State.reset with i := 0xFF2 } 0xFF65).map (·.halt)
    = some (some (.memoryOutOfBounds 0xFF2 15)) := by decide

/-! ## One step: framebuffer and sprites -/

-- T-D18
theorem test_cls : (after { withRegs [(0xF, 1)] with fb := (State.reset.fb.set 0 1#64).set 31 (1#64 <<< 63) } 0x00E0).map
    (fun t => (t.fb == State.reset.fb, t.getV 0xF)) = some (true, 1) := by decide
-- T-D4: cells (5, 6), (5, 7), (6, 6), (6, 7)
theorem test_drw_origin_wraps : (after { withMem (withRegs [(0, 70), (1, 5)]) 0x300 [0xC0, 0xC0] with i := 0x300 } 0xD012).map
    (fun t => (t.fb == (State.reset.fb.set 5 0b11000000#64).set 6 0b11000000#64, t.getV 0xF)) = some (true, 0) := by
  decide
-- T-D13
theorem test_drw_collision : (after { withMem (withRegs [(0xF, 5), (1, 2)]) 0x300 [0x80] with
      i := 0x300, fb := State.reset.fb.set 2 (1#64 <<< 5) } 0xDF11).map
    (fun t => (cell t.fb 2 5, t.getV 0xF)) = some (false, 1) := by decide

/-! ## One step: timers and keyboard -/

-- T-T5
theorem test_ldVxDt : (after { withRegs [(2, 0x77)] with dt := 9, st := 3 } 0xF207).map
    (fun t => (t.getV 2, t.dt, t.st)) = some (9, 8, 2) := by decide
-- T-T1
theorem test_ldDtVx : (after { withRegs [(1, 5)] with dt := 9, st := 3 } 0xF115).map (fun t => (t.dt, t.st)) = some (4, 2) := by
  decide
-- T-T4
theorem test_ldStVx : (after (withRegs [(1, 0xFF)]) 0xF118).map (·.st) = some 254 := by decide
-- T-K5, T-K2
theorem test_skp : (after (withKeyDown (withRegs [(1, 0xF)]) 15) 0xE19E).map (·.pc) = some 0x204 ∧
    (after (withRegs [(1, 5)]) 0xE19E).map (·.pc) = some 0x202 := by decide
-- T-K6
theorem test_skp_out_of_range : (after (withRegs [(1, 0x10)]) 0xE19E).map (fun t => (t.pc, t.halt))
    = some (0x200, some (.keyIndexOutOfRange 16)) := by decide
-- T-K3, T-K4
theorem test_sknp : (after (withKeyDown (withRegs [(1, 5)]) 5) 0xE1A1).map (·.pc) = some 0x202 ∧
    (after (withRegs [(1, 5)]) 0xE1A1).map (·.pc) = some 0x204 := by decide
-- T-K9, cycle 1
theorem test_ldVxK_stall : (after { withRegs [(3, 0x99)] with dt := 2 } 0xF30A).map (fun t => (t.pc, t.getV 3, t.dt))
    = some (0x200, 0x99, 1) := by decide
-- T-K12
theorem test_ldVxK_lowest : (after (withKeyDown (withKeyDown State.reset 15) 3) 0xFF0A).map (fun t => (t.getV 0xF, t.pc))
    = some (3, 0x202) := by decide

/-! ## FONT is a parameter -/

-- T-P4: the two bytes at 0x000 with the default FONT
theorem test_default_font : (State.reset.readBytes 0 2, State.reset.read 0x4F, State.reset.read 0x50) = ([0xF0, 0x90], 0x80, 0) := by
  decide
-- R36: with another FONT its bytes stand there, 0x050 is zero
theorem test_other_font : ((State.resetWith otherFont).read 0, (State.resetWith otherFont).read 0x4F,
    (State.resetWith otherFont).read 0x50) = (0x12, 0x12, 0) := by decide
-- R240: Reset gives this machine's FONT back after a store over it
theorem test_reset_restores_font :
    ((withMem (State.resetWith otherFont) 0 [0x99]).read 0, (withMem (State.resetWith otherFont) 0 [0x99]).resetOp.read 0)
      = (0x99, 0x12) := by decide

/-! ## The host interface -/

-- T-R3
theorem test_load_overflow : (hostStep true (.loadProgram (List.replicate 3585 0)) State.reset).2 = .failed (.loadOverflow 3585) := by
  simp only [hostStep, loadProgram, List.length_replicate]; rfl
-- T-R5
theorem test_load_keeps_the_rest :
    ((hostStep true (.loadProgram [9]) (hostStep true (.loadProgram [1, 2, 3, 4]) State.reset).1).1.readBytes 0x200 4)
      = [9, 2, 3, 4] := by decide
-- T-T10
theorem test_host_tick : (hostStep false .timerTick { State.reset with dt := 3 }).1.dt = 2 ∧
    (hostStep true .timerTick { State.reset with dt := 3 }).2 = .refused .noTickOperation := by decide

/-! ## Witnesses: for every statement with hypotheses, values that meet them, clause by clause

An encoding clause "every word under the mask decodes" is met by the words of the decode tests above. -/

/-- A state no reset leaves: registers, a call in progress, a key down, timers running. -/
def busy : State :=
  { withMem (withKeyDown (withRegs [(0, 0xFF), (1, 7), (2, 7), (3, 0x10), (0xF, 5)]) 9) 0x300 [0x80, 0x01] with
    pc := 0x300, i := 0x300, sp := 1, stack := State.reset.stack.set 0 0x206, dt := 9, st := 3 }

/-- `busy` at a word. -/
def busyAt (w : Nat) : State := busy.withFetchWord 16 w

theorem test_busyAt_runs : (busyAt 0x6A2C).runs (.ldImm 0xA 0x2C) := ⟨rfl, by decide, by decide⟩

theorem test_witness_DispatchFollowsTheTwoLevelTable : decodeWord 0xF090 = none := by decide
theorem test_witness_EncodedBytesDecodeBack : (Instr.drw 15 15 15).wellFormed = true := by decide
theorem test_witness_DecodedWordIsTheEncodingUpToIgnoredBits : decodeWord 0x0FE0 = some .cls := by decide
theorem test_witness_MovesAndLogicSetRegister : (7 : Nat) < 8 := by decide
-- x = 0xF meets the first clause of the flag writers too; these two are the sides of x ≠ 0xF
theorem test_witness_flag_destination : (14 : Reg) ≠ 0xF ∧ ¬(15 : Reg) ≠ 0xF := by decide
theorem test_witness_advances : ({ busy with pc := 0xFFC } : State).pc.toNat ≤ 0xFFC := by decide
theorem test_witness_FlagRegisterAsOperand : (busy.getV 0xF).toNat = 5 ∧
    (ran (.addReg 0xF 1) busy).isSome ∧ (ran (.addReg 1 0xF) busy).isSome ∧ (ran (.sub 0xF 1) busy).isSome ∧
    (ran (.sub 1 0xF) busy).isSome ∧ (ran (.shr 0xF 1) busy).isSome ∧ (ran (.subn 0xF 1) busy).isSome ∧
    (ran (.subn 1 0xF) busy).isSome ∧ (ran (.shl 0xF 1) busy).isSome := by decide
theorem test_witness_AdvanceAndSkipWrapToProgramStart :
    (0xFFD#16).toNat ≤ 0xFFD ∧ 0xFFD < (0xFFE#16).toNat ∧ (0xFFB#16).toNat ≤ 0xFFB ∧ 0xFFB < (0xFFC#16).toNat := by decide
theorem test_witness_CounterUpdate_stall : ∃ t, State.reset.halt = none ∧ exec (.ldVxK 2) State.reset = .next t ∧
    t.halt = none ∧ repositions (.ldVxK 2) = false ∧ stallsOn State.reset (.ldVxK 2) :=
  ⟨_, rfl, rfl, rfl, rfl, ⟨2, rfl⟩, by decide⟩
theorem test_witness_CounterUpdate_skip : ∃ t, exec (.seReg 1 2) busy = .next t ∧ t.halt = none ∧
    repositions (.seReg 1 2) = false ∧ skipTaken busy (.seReg 1 2) := ⟨_, rfl, rfl, rfl, rfl⟩
theorem test_witness_CounterUpdate_next : ∃ t, exec (.ldVxK 2) busy = .next t ∧ t.halt = none ∧
    repositions (.ldVxK 2) = false ∧ ¬stallsOn busy (.ldVxK 2) ∧ ¬skipTaken busy (.ldVxK 2) :=
  ⟨_, rfl, rfl, rfl, fun h => absurd (h.2 9) (by decide), id⟩
theorem test_witness_JumpSetsPc : busy.halt = none ∧ (0xFFF#12) = 0xFFF#12 := by decide
theorem test_witness_CallPushesReturnAddress :
    ({ busy with sp := 15 } : State).sp.val < 16 ∧ ({ busy with sp := 16 } : State).sp.val = 16 := by decide
theorem test_witness_ReturnPopsIntoPc : 0 < busy.sp.val ∧ State.reset.sp.val = 0 := by decide
theorem test_witness_StackFaults_full : ∃ t, exec (.call 0x300) { busy with sp := 16 } = .next t ∧
    t.halt = some (.stackOverflow 0x300) := ⟨_, rfl, rfl⟩
theorem test_witness_StackFaults_empty : ∃ t, exec .ret { busy with sp := 0 } = .next t ∧
    t.halt = some (.stackUnderflow 0x300) := ⟨_, rfl, rfl⟩
theorem test_witness_CallThenReturnRoundTrip : ∃ t, ({ busy with sp := 15 } : State).sp.val < 16 ∧
    exec (.call 0x300) { busy with sp := 15 } = .next t ∧ t.sp.val = 15 + 1 := ⟨_, by decide, rfl, rfl⟩
theorem test_witness_IndexedJumpAddsV0 : busy.halt = none ∧ 0xFFF ≤ (0xF00#12).toNat + (busy.getV 0).toNat := by decide
theorem test_witness_RegisterSkips : ({ busy with pc := 0xFFA } : State).pc.toNat ≤ 0xFFA ∧
    (busy.getV 1).toNat = (0x07#8).toNat ∧ (busy.getV 1).toNat = (busy.getV 2).toNat ∧
    (busy.getV 1).toNat ≠ (busy.getV 0).toNat := by decide
theorem test_witness_BcdStoresThreeDigits :
    ({ busy with i := 0xFFD } : State).i.toNat ≤ 0xFFD ∧ 0xFFD < ({ busy with i := 0xFFE } : State).i.toNat := by decide
-- counts 15 and 0; the last range in memory, the first that leaves it, and an empty one above memory
theorem test_witness_store_and_load_ranges : (15 ≤ 15 ∧ (0xFF1#16).toNat + 15 - 1 ≤ 0xFFF) ∧
    (0 < 15 ∧ 0xFFF < (0xFF2#16).toNat + 15 - 1) ∧ (0 ≤ 15 ∧ (0xFFFF#16).toNat = 65535) := by decide
theorem test_witness_StoreThenLoadRestoresRegisters : ∃ t, 15 ≤ 15 ∧ busy.i.toNat + 15 - 1 ≤ 0xFFF ∧
    exec (.stRegs 15) busy = .next t ∧ (∀ k, k < 15 → t.read (busy.i.toNat + k) = t.read (busy.i.toNat + k)) ∧
    t.i = busy.i := ⟨_, by decide, by decide, rfl, fun _ _ => rfl, rfl⟩
theorem test_witness_DrawXorsTheSprite : (15 ≤ 15 ∧ (0xFF1#16).toNat + 15 - 1 ≤ 0xFFF) ∧
    (0 < 15 ∧ 0xFFF < (0xFF2#16).toNat + 15 - 1) ∧ 0 ≤ 15 := by decide
theorem test_witness_RowsPastTheBottom : ∃ t, busy.i.toNat + 2 - 1 ≤ 0xFFF ∧ exec (.drw 1 0 2) busy = .next t ∧
    32 ≤ (busy.getV 0).toNat := ⟨_, by decide, rfl, by decide⟩
theorem test_witness_RowsPastTheBottom_rows : ∃ t, exec (.drw 0 1 2) busy = .next t ∧
    ((6 : Fin 32).val < (busy.getV 1).toNat) ∧ (busy.getV 1).toNat + 2 ≤ (9 : Fin 32).val :=
  ⟨_, rfl, by decide, by decide⟩
theorem test_witness_DrawingTwice : ∃ t u, (0 : Reg) ≠ 0xF ∧ (1 : Reg) ≠ 0xF ∧ busy.i.toNat + 2 - 1 ≤ 0xFFF ∧
    exec (.drw 0 1 2) busy = .next t ∧ exec (.drw 0 1 2) t = .next u := ⟨_, _, by decide, by decide, by decide, rfl, rfl⟩
theorem test_witness_ReadDelayTimer : (busyAt 0xF307).runs (.ldVxDt 3) := ⟨rfl, by decide, by decide⟩
theorem test_witness_TimerWrites : (busyAt 0xF115).runs (.ldDtVx 1) ∧ (busyAt 0xF118).runs (.ldStVx 1) :=
  ⟨⟨rfl, by decide, by decide⟩, ⟨rfl, by decide, by decide⟩⟩
theorem test_witness_EveryCompletedCycleTicks : ∃ t, (busyAt 0xF115).runs (.ldDtVx 1) ∧ step (busyAt 0xF115) = .next t ∧
    t.halt = none := ⟨_, test_witness_TimerWrites.1, rfl, rfl⟩
-- T-T8: a jump to itself, over two cycles, never runs Fx15 or Fx18
theorem test_witness_TimerCountsCyclesDown : ∃ t, step (busyAt 0x1300) = .next t ∧ t.halt = none ∧
    (busyAt 0x1300).runs (.jp 0x300) ∧ t.runs (.jp 0x300) ∧ ∃ u, step t = .next u ∧ u.halt = none :=
  ⟨_, rfl, rfl, ⟨rfl, by decide, by decide⟩, ⟨rfl, by decide, by decide⟩, _, rfl, rfl⟩
theorem test_witness_SoundTimerIsNotObservable : ∃ t, step (busyAt 0xF118) = .next t := ⟨_, rfl⟩
theorem test_witness_KeySkipsTestTheKey : ((withRegs [(1, 15)]).getV 1).toNat = (15 : Fin 16).val ∧
    15 < ((withRegs [(1, 16)]).getV 1).toNat := by decide
theorem test_witness_KeyWait_none : (∀ k : Fin 16, (State.reset.withFetchWord 16 0xF20A).keys[k] = false) ∧
    (State.reset.withFetchWord 16 0xF20A).runs (.ldVxK 2) := ⟨by decide, rfl, by decide, by decide⟩
theorem test_witness_KeyWait_some : (withKeyDown State.reset 15).keys[(15 : Fin 16)] = true ∧
    ∀ j : Fin 16, j < 15 → (withKeyDown State.reset 15).keys[j] = false := by decide
theorem test_witness_WaitingChangesOnlyTheTimers : (State.reset.withFetchWord 16 0xF20A).runs (.ldVxK 2) ∧
    ∀ k : Fin 16, (State.reset.withFetchWord 16 0xF20A).keys[k] = false := ⟨test_witness_KeyWait_none.2, by decide⟩
-- the last address an instruction can stand at, one that completes and one that raises
theorem test_witness_StepRuns_completes : let s := ({ busy with pc := 0xFFE } : State).withFetchWord 16 0x6A2C
    s.halt = none ∧ s.pc.toNat + 1 ≤ 0xFFF ∧
    decodeBytes [s.read s.pc.toNat, s.read (s.pc.toNat + 1)] = .ok (.ldImm 0xA 0x2C, []) ∧
    ∃ t, exec (.ldImm 0xA 0x2C) s = .next t ∧ t.halt = none := ⟨rfl, by decide, by decide, _, rfl, rfl⟩
theorem test_witness_StepRuns_raises : let s := ({ busy with pc := 0xFFE, sp := 0 } : State).withFetchWord 16 0x00EE
    s.halt = none ∧ s.pc.toNat + 1 ≤ 0xFFF ∧
    decodeBytes [s.read s.pc.toNat, s.read (s.pc.toNat + 1)] = .ok (.ret, []) ∧
    ∃ t, exec .ret s = .next t ∧ t.halt ≠ none := ⟨rfl, by decide, by decide, _, rfl, by decide⟩
theorem test_witness_FetchAndDispatchFaults : 0xFFF ≤ ({ busy with pc := 0xFFF } : State).pc.toNat ∧
    ({ busy with pc := 0xFFE } : State).pc.toNat < 0xFFF ∧ busy.halt = none ∧
    decodeWord (wordAt { busy with pc := 0xFFE }) = none := by decide
theorem test_witness_HaltedMachineOnlyResets :
    ({ busy with halt := some (.fetchOutOfBounds 0xFFF) } : State).halt = some (.fetchOutOfBounds 0xFFF) := rfl
theorem test_witness_FaultsArePrecise_raised : ∃ t, cycleWith true (busyAt 0xE09E) = .next t ∧
    t.halt = some (.keyIndexOutOfRange 0xFF) := ⟨_, rfl, rfl⟩
theorem test_witness_FaultsArePrecise_ok : ∃ t, cycleWith true (busyAt 0x6A2C) = .next t ∧ t.halt = none := ⟨_, rfl, rfl⟩
theorem test_witness_EachInstructionRaises_key : ∃ t, busy.halt = none ∧ exec (.skp 3) busy = .next t ∧
    t.halt = some (.keyIndexOutOfRange 0x10) := ⟨_, rfl, rfl, rfl⟩
theorem test_witness_EachInstructionRaises_memory : ∃ t, exec (.stRegs 15) { busy with i := 0xFF2 } = .next t ∧
    t.halt = some (.memoryOutOfBounds 0xFF2 15) := ⟨_, rfl, rfl⟩
theorem test_witness_EachInstructionRaises_digits : ∃ t, exec (.ldB 0) { busy with i := 0xFFE } = .next t ∧
    t.halt = some (.memoryOutOfBounds 0xFFE 3) := ⟨_, rfl, rfl⟩
theorem test_witness_EveryInstructionAndCycleAnswers : busy.halt = none := rfl
theorem test_witness_OnlyTheListedWritersWrite : ∃ t, exec (.ldB 0) busy = .next t := ⟨_, rfl⟩
theorem test_witness_StoresStayInTheirRange : ∃ t, exec (.stRegs 15) busy = .next t ∧ 0x2FF < busy.i.toNat ∧
    busy.i.toNat + storedBytes (.stRegs 15) ≤ 0x30F := ⟨_, rfl, by decide, by decide⟩
theorem test_witness_OnlySixInstructionsWriteTheFlag : ∃ t, exec (.addReg 14 1) busy = .next t ∧
    writesFlag (.addReg 14 1) = true ∧ resultReg (.addReg 14 1) ≠ some 0xF ∧ busy.halt = none ∧ t.halt = none :=
  ⟨_, rfl, rfl, by decide, rfl, rfl⟩

theorem test_busy_inv (w : Nat) : (busyAt w).Inv where
  mem_wf := State.writeBytes_wf (s := busy) (Memory.writeBytes_wf (m := []) ⟨.nil, fun _ h => nomatch h⟩ _ _) _ _
  pc_le := (by decide : busy.pc.toNat ≤ 0x10FE)
  stack_le := (by decide : ∀ j : Fin 16, busy.stack[j].toNat ≤ 0xFFF)
  used_return := (by decide : ∀ j : Fin 16, j.val < busy.sp.val → 2 ≤ busy.stack[j].toNat ∧ busy.stack[j].toNat ≤ 0xFFF)

theorem test_witness_EveryStepKeepsTheInvariant : ∃ t, (busyAt 0x00EE).Inv ∧ step (busyAt 0x00EE) = .next t :=
  ⟨_, test_busy_inv _, rfl⟩
theorem test_witness_EveryStepKeepsTheInvariant_noTick : ∃ t, cycleWith false (busyAt 0xF355) = .next t := ⟨_, rfl⟩
theorem test_witness_EveryHostOperationKeepsTheInvariant : (busyAt 0x2300).Inv := test_busy_inv _
theorem test_witness_FontIsAParameter : ∃ t, exec (.ldB 0) (State.resetWith otherFont) = .next t ∧
    t.font = otherFont := ⟨_, rfl, rfl⟩
theorem test_witness_FontIsAParameter_cycle : ∃ t,
    cycleWith true ((State.resetWith otherFont).withFetchWord 16 0x6000) = .next t ∧ t.font = otherFont := ⟨_, rfl, rfl⟩
theorem test_witness_FontIsAParameter_bytes : 79 < 80 ∧ 80 ≤ 80 := by decide
theorem test_witness_HaltedMachine_op : HostOp.timerTick ≠ .reset := by decide
theorem test_witness_ResetSetsEveryElement : 79 < 80 ∧ 80 ≤ 80 := by decide
theorem test_witness_LoadProgramCopiesTheBytes : (List.replicate 3584 (0xAA#8)).length ≤ 3584 ∧
    (0x1FF < 0x200 ∧ 0x200 + 3584 ≤ 0x1000) := ⟨Nat.le_of_eq List.length_replicate, by decide⟩
theorem test_witness_LoadOverflow : 3584 < (List.replicate 3585 (0xAA#8)).length := by
  rw [List.length_replicate]; decide
theorem test_witness_LoadOverflow_reported :
    (hostStep true (.loadProgram (List.replicate 3585 0)) busy).2 = .failed (.loadOverflow 3585) := by
  simp only [hostStep, loadProgram, List.length_replicate]; rfl
theorem test_witness_LoadOverflow_halted :
    (hostStep true .cycle { busy with halt := some (.loadOverflow 3585) }).1.halt = some (.loadOverflow 3585) := rfl
theorem test_witness_SetKeyAndHostTick : (15 : Fin 16).val = 15 ∧ 15 < 16 := by decide

end Sys2Proof.Tests
end

namespace Sys2Proof

/-- Settles O1: the number of each field of the descriptor, one law per field. -/
theorem descriptorFieldsAreTheBitFields : Obligations.DescriptorFieldsAreTheBitFields := fun w =>
  ⟨describe_hi_toNat w, describe_lo_toNat w, describe_cls_toNat w, describe_x_toNat w,
    describe_y_toNat w, describe_n_toNat w, describe_nnn_toNat w⟩

end Sys2Proof

namespace Sys2Proof

/-! ## Support for the register file: the operands of a word, and the encoding of the formats XKK and XY (R73) -/

theorem regOf_describe_x (w : Word) : regOf (describe w).x = wordX w := Fin.ext (describe_x_toNat w)

theorem regOf_describe_y (w : Word) : regOf (describe w).y = wordY w := Fin.ext (describe_y_toNat w)

theorem describe_lo_eq_wordKk (w : Word) : (describe w).lo = wordKk w := by
  rw [wordKk, ← describe_lo_toNat, BitVec.ofNat_toNat, BitVec.setWidth_eq]

/-- A class whose every descriptor selects `f` of x and kk is encoded by its class nibble alone. -/
theorem encodes_xkk {c : Nibble} {f : Reg → Byte → Instr}
    (hsel : ∀ d : Descriptor, d.cls = c → select d = some (f (regOf d.x) d.lo)) :
    Encodes 0xF000#16 (packByte c 0#4 0#8) (fun w => f (wordX w) (wordKk w)) := by
  intro w hw
  have hcls : (describe w).cls = c :=
    (describe_of_mask hw 12 4 (by decide)).trans (describe_packByte_cls c 0#4 0#8)
  rw [decodeWord, hsel _ hcls, regOf_describe_x, describe_lo_eq_wordKk]

/-- In class 0x8, an `n` that selects `f` of x and y is encoded by the class and that `n` (R76). -/
theorem encodes_class8 {n : Nibble} {f : Reg → Reg → Instr}
    (hsel : ∀ d : Descriptor, d.n = n → selectClass8 d = some (f (regOf d.x) (regOf d.y))) :
    Encodes 0xF00F#16 (packNibbles 0x8#4 0#4 0#4 n) (fun w => f (wordX w) (wordY w)) := by
  intro w hw
  have hcls : (describe w).cls = 0x8#4 :=
    (describe_of_mask hw 12 4 (by decide)).trans (describe_packNibbles_cls 0x8#4 0#4 0#4 n)
  have hn : (describe w).n = n :=
    (describe_of_mask hw 0 4 (by decide)).trans (describe_packNibbles_n 0x8#4 0#4 0#4 n)
  have hclass : select (describe w) = selectClass8 (describe w) := by simp [select, hcls]
  rw [decodeWord, hclass, hsel _ hn, regOf_describe_x, regOf_describe_y]

namespace Machine

/-! ## A register write that completes -/

/-- The normal counter update advances pc by 2 away from the top of memory (R90, R96). -/
theorem advances_newPc_next {s t : State} (hpc : t.pc = newPc s.pc .next) : advances s t := by
  intro hlow
  rw [hpc, newPc, advance_toNat, if_pos (by omega)]

/-- One register write followed by the normal counter update sets that register and keeps the rest. -/
theorem setV_complete_setsRegister (s : State) (x : Reg) (b : Byte) :
    ∃ t, (s.setV x b).complete .next = .next t ∧ setsRegister s t x b := by
  refine ⟨_, State.complete_eq _ _, ?written, fun r hr => ?others, rfl, advances_newPc_next rfl⟩
  case written => exact (State.getV_setV s x x b).trans (if_pos rfl)
  case others => exact (State.getV_setV s x r b).trans (if_neg hr)

/-- The same write, its value told bit by bit. -/
theorem setV_complete_setsBits (s : State) (x : Reg) {b : Byte} {bit : Nat → Bool}
    (hbit : ∀ k, k < 8 → b.getLsbD k = bit k) :
    ∃ t, (s.setV x b).complete .next = .next t ∧ setsRegister s t x (t.getV x) ∧
      ∀ k, k < 8 → (t.getV x).getLsbD k = bit k := by
  obtain ⟨t, hnext, hset⟩ := setV_complete_setsRegister s x b
  obtain rfl : t.getV x = b := hset.1
  exact ⟨t, hnext, hset, hbit⟩

/-! ## The instructions that write one register and no flag (R111 to R116) -/

theorem exec_ldImm (x : Reg) (kk : Byte) (s : State) :
    exec (.ldImm x kk) s = (s.setV x kk).complete .next := rfl

theorem exec_addImm (x : Reg) (kk : Byte) (s : State) :
    exec (.addImm x kk) s = (s.setV x (s.getV x + kk)).complete .next := rfl

theorem exec_ldReg (x y : Reg) (s : State) :
    exec (.ldReg x y) s = (s.setV x (s.getV y)).complete .next := rfl

theorem exec_or (x y : Reg) (s : State) :
    exec (.or x y) s = (s.setV x (s.getV x ||| s.getV y)).complete .next := rfl

theorem exec_and (x y : Reg) (s : State) :
    exec (.and x y) s = (s.setV x (s.getV x &&& s.getV y)).complete .next := rfl

theorem exec_xor (x y : Reg) (s : State) :
    exec (.xor x y) s = (s.setV x (s.getV x ^^^ s.getV y)).complete .next := rfl

/-- The sum of two bytes, by arithmetic modulo 256. -/
theorem byte_add_eq_ofNat (a b : Byte) : a + b = BitVec.ofNat 8 ((a.toNat + b.toNat) % 256) := by
  apply BitVec.eq_of_toNat_eq
  rw [BitVec.toNat_add, BitVec.toNat_ofNat, Nat.mod_mod]

end Machine

open Machine

/-- Settles O6: class 0x6 selects the immediate load, which is one register write (R111). -/
theorem loadImmediateSetsRegister : Obligations.LoadImmediateSetsRegister := by
  refine ⟨encodes_xkk (c := 0x6#4) fun d hd => by simp [select, hd], fun x kk s => ?_⟩
  rw [exec_ldImm]
  exact setV_complete_setsRegister s x kk

/-- Settles O7: class 0x7 selects the immediate add, which is one register write of the sum modulo 256 (R112). -/
theorem addImmediateWrapsWithoutFlag : Obligations.AddImmediateWrapsWithoutFlag := by
  refine ⟨encodes_xkk (c := 0x7#4) fun d hd => by simp [select, hd], fun x kk s => ?_⟩
  rw [exec_addImm, byte_add_eq_ofNat]
  exact setV_complete_setsRegister s x _

/-- Settles O8: `n` from 0 to 3 selects the copy and the three bitwise operations, each one register write (R113 to
R116). -/
theorem movesAndLogicSetRegister : Obligations.MovesAndLogicSetRegister := by
  refine ⟨encodes_class8 (n := 0x0#4) fun d hd => by simp [selectClass8, hd],
    encodes_class8 (n := 0x1#4) fun d hd => by simp [selectClass8, hd],
    encodes_class8 (n := 0x2#4) fun d hd => by simp [selectClass8, hd],
    encodes_class8 (n := 0x3#4) fun d hd => by simp [selectClass8, hd],
    fun x y s => ⟨?copy, ?or, ?and, ?xor⟩⟩
  case copy =>
    rw [exec_ldReg]
    exact setV_complete_setsRegister s x (s.getV y)
  case or =>
    rw [exec_or]
    exact setV_complete_setsBits s x fun _ _ => BitVec.getLsbD_or
  case and =>
    rw [exec_and]
    exact setV_complete_setsBits s x fun _ _ => BitVec.getLsbD_and
  case xor =>
    rw [exec_xor]
    exact setV_complete_setsBits s x fun _ _ => BitVec.getLsbD_xor

end Sys2Proof

namespace Sys2Proof

/-! ## Support for the skips: the encoding of the format XY of a whole class (R73), and what a skip changes -/

/-- A class whose every descriptor selects `f` of x and y is encoded by its class nibble alone. -/
theorem encodes_xy {c : Nibble} {f : Reg → Reg → Instr}
    (hsel : ∀ d : Descriptor, d.cls = c → select d = some (f (regOf d.x) (regOf d.y))) :
    Encodes 0xF000#16 (packByte c 0#4 0#8) (fun w => f (wordX w) (wordY w)) := by
  intro w hw
  have hcls : (describe w).cls = c :=
    (describe_of_mask hw 12 4 (by decide)).trans (describe_packByte_cls c 0#4 0#8)
  rw [decodeWord, hsel _ hcls, regOf_describe_x, regOf_describe_y]

namespace Machine

/-- A taken skip advances pc by 4 away from the top of memory (R96). -/
theorem newPc_skip_toNat {pc : Word} (hlow : pc.toNat ≤ 0xFFA) : (newPc pc .skip).toNat = pc.toNat + 4 := by
  rw [newPc, advance_toNat, if_pos (by omega)]

/-- A skip completes, and skips exactly when the tested condition holds. -/
theorem skipIf_skipsWhen (s : State) {b : Bool} {cond : Prop} (hb : b = true ↔ cond) :
    ∃ t, s.skipIf b = .next t ∧ skipsWhen s t cond := by
  refine ⟨_, State.complete_eq _ _, rfl, fun hlow => ⟨fun hc => ?taken, fun hc => ?notTaken⟩⟩
  case taken =>
    rw [if_pos (hb.2 hc)]
    exact newPc_skip_toNat hlow
  case notTaken =>
    rw [if_neg (mt hb.1 hc)]
    exact advances_newPc_next (t := { s with pc := newPc s.pc .next }) rfl (by omega)

/-- A skip on equal bytes skips when their values are equal. -/
theorem skipIf_eq_skipsWhen (s : State) (a b : Byte) :
    ∃ t, s.skipIf (a = b) = .next t ∧ skipsWhen s t (a.toNat = b.toNat) :=
  skipIf_skipsWhen s (decide_eq_true_iff.trans BitVec.toNat_inj.symm)

/-- A skip on different bytes skips when their values differ. -/
theorem skipIf_ne_skipsWhen (s : State) (a b : Byte) :
    ∃ t, s.skipIf (a ≠ b) = .next t ∧ skipsWhen s t (a.toNat ≠ b.toNat) :=
  skipIf_skipsWhen s (decide_eq_true_iff.trans (not_congr BitVec.toNat_inj.symm))

/-! ## The instructions that skip on a register (R135 to R138) -/

theorem exec_seImm (x : Reg) (kk : Byte) (s : State) : exec (.seImm x kk) s = s.skipIf (s.getV x = kk) := rfl

theorem exec_sneImm (x : Reg) (kk : Byte) (s : State) : exec (.sneImm x kk) s = s.skipIf (s.getV x ≠ kk) := rfl

theorem exec_seReg (x y : Reg) (s : State) : exec (.seReg x y) s = s.skipIf (s.getV x = s.getV y) := rfl

theorem exec_sneReg (x y : Reg) (s : State) : exec (.sneReg x y) s = s.skipIf (s.getV x ≠ s.getV y) := rfl

end Machine

open Machine

/-- Settles O23: classes 0x3, 0x4, 0x5 and 0x9 select the four skips, each one comparison of two bytes (R135 to
R138). -/
theorem registerSkipsTestTheirCondition : Obligations.RegisterSkipsTestTheirCondition := by
  refine ⟨encodes_xkk (c := 0x3#4) fun d hd => by simp [select, hd],
    encodes_xkk (c := 0x4#4) fun d hd => by simp [select, hd],
    encodes_xy (c := 0x5#4) fun d hd => by simp [select, hd],
    encodes_xy (c := 0x9#4) fun d hd => by simp [select, hd],
    fun x y kk s => ⟨?seImm, ?sneImm, ?seReg, ?sneReg⟩⟩
  case seImm =>
    rw [exec_seImm]
    exact skipIf_eq_skipsWhen s (s.getV x) kk
  case sneImm =>
    rw [exec_sneImm]
    exact skipIf_ne_skipsWhen s (s.getV x) kk
  case seReg =>
    rw [exec_seReg]
    exact skipIf_eq_skipsWhen s (s.getV x) (s.getV y)
  case sneReg =>
    rw [exec_sneReg]
    exact skipIf_ne_skipsWhen s (s.getV x) (s.getV y)

end Sys2Proof

namespace Sys2Proof

/-! ## Support for the index register: the encoding of the format NNN (R73), and a write of I that completes -/

theorem describe_nnn_eq_wordNnn (w : Word) : (describe w).nnn = wordNnn w := by
  rw [wordNnn, ← describe_nnn_toNat, BitVec.ofNat_toNat, BitVec.setWidth_eq]

/-- A class whose every descriptor selects `f` of nnn is encoded by its class nibble alone. -/
theorem encodes_nnn {c : Nibble} {f : BitVec 12 → Instr}
    (hsel : ∀ d : Descriptor, d.cls = c → select d = some (f d.nnn)) :
    Encodes 0xF000#16 (packAddr c 0#12) (fun w => f (wordNnn w)) := by
  intro w hw
  have hcls : (describe w).cls = c :=
    (describe_of_mask hw 12 4 (by decide)).trans (describe_packAddr_cls c 0#12)
  rw [decodeWord, hsel _ hcls, describe_nnn_eq_wordNnn]

namespace Machine

/-- A write of I followed by the normal counter update sets I, advances pc and keeps the rest (R23, R96). -/
theorem setI_complete_setsIndex (s : State) (w : Word) :
    ∃ t, (s.setI w).complete .next = .next t ∧ t.i = w ∧ t = { s with i := t.i, pc := t.pc } ∧ advances s t :=
  ⟨_, State.complete_eq _ _, State.setI_i s w, rfl, advances_newPc_next rfl⟩

theorem exec_ldI (nnn : BitVec 12) (s : State) :
    exec (.ldI nnn) s = (s.setI (addrOf nnn)).complete .next := rfl

end Machine

open Machine

/-- Settles O24: class 0xA selects the index load, which is one write of I with the zero-extended immediate (R151). -/
theorem loadIndexSetsI : Obligations.LoadIndexSetsI := by
  refine ⟨encodes_nnn (c := 0xA#4) fun d hd => by simp [select, hd], fun nnn s => ?_⟩
  obtain ⟨t, hnext, hi, hframe, hadv⟩ := setI_complete_setsIndex s (addrOf nnn)
  have hvalue : t.i.toNat = nnn.toNat := by rw [hi, addrOf_toNat]
  exact ⟨t, (exec_ldI nnn s).trans hnext, hvalue, hframe, hadv⟩

end Sys2Proof

namespace Sys2Proof

/-! ## Support for the framebuffer: the encoding of a class with a byte selector (R75, R77, R78), and the clear -/

/-- A class and low byte whose every descriptor selects `f` of x are encoded by that nibble and that byte. -/
theorem encodes_xlo {c : Nibble} {lo : Byte} {f : Reg → Instr}
    (hsel : ∀ d : Descriptor, d.cls = c → d.lo = lo → select d = some (f (regOf d.x))) :
    Encodes 0xF0FF#16 (packByte c 0#4 lo) (fun w => f (wordX w)) := by
  intro w hw
  have hcls : (describe w).cls = c :=
    (describe_of_mask hw 12 4 (by decide)).trans (describe_packByte_cls c 0#4 lo)
  have hlo : (describe w).lo = lo :=
    (describe_of_mask hw 0 8 (by decide)).trans (describe_packByte_lo c 0#4 lo)
  rw [decodeWord, hsel _ hcls hlo, regOf_describe_x]

namespace Machine

theorem exec_cls (s : State) : exec .cls s = ({ s with fb := darkFb }).complete .next := rfl

/-- The framebuffer replaced, followed by the normal counter update, keeps the rest (R96). -/
theorem setFb_complete_setsFramebuffer (s : State) (fb : Framebuffer) :
    ∃ t, ({ s with fb := fb }).complete .next = .next t ∧ t.fb = fb ∧
      t = { s with fb := t.fb, pc := t.pc } ∧ advances s t :=
  ⟨_, State.complete_eq _ _, rfl, rfl, advances_newPc_next rfl⟩

end Machine

open Machine

/-- Settles O30: class 0x0 with low byte 0xE0 selects the clear, which puts the dark framebuffer in place of the old one
(R171). -/
theorem clearDarkensEveryCell : Obligations.ClearDarkensEveryCell := by
  refine ⟨encodes_xlo (c := 0x0#4) (lo := 0xE0#8) (f := fun _ => .cls)
    fun d hcls hlo => by simp [select, selectClass0, hcls, hlo], fun s => ?_⟩
  obtain ⟨t, hnext, hfb, hframe, hadv⟩ := setFb_complete_setsFramebuffer s darkFb
  have hdark : ∀ r c, r < 32 → c < 64 → cell t.fb r c = false := fun r c _ _ => by rw [hfb, cell_darkFb]
  exact ⟨t, (exec_cls s).trans hnext, hdark, hframe, hadv⟩

end Sys2Proof

namespace Sys2Proof

/-! ## Support for the timers: the selector of `Fx07`, and a completed cycle that ends with its tick -/

theorem select_ldVxDt {d : Descriptor} (hcls : d.cls = 0xF#4) (hlo : d.lo = 0x07#8) :
    select d = some (.ldVxDt (regOf d.x)) := by
  have hclass : select d = selectClassF d := by simp [select, hcls]
  rw [hclass, selectClassF, if_pos hlo]

namespace Machine

theorem exec_ldVxDt (x : Reg) (s : State) : exec (.ldVxDt x) s = (s.setV x s.dt).complete .next := rfl

@[simp] theorem State.timerTick_getV (s : State) (r : Reg) : s.timerTick.getV r = s.getV r := rfl

/-- With TICK_PER_CYCLE true, a cycle whose instruction raises nothing ends with the tick of what the instruction left
(R97, R189). -/
theorem cycleWith_true_ticks {s t : State} {i : Instr} (hruns : s.runs i) (hexec : exec i s = .next t)
    (hhalt : t.halt = none) : cycleWith true s = .next t.timerTick := by
  rw [cycleWith_runs hruns, hexec, mapNext, State.endCycle_running hhalt, if_pos rfl]

theorem setsRegister_dt {s t : State} {x : Reg} {b : Byte} (h : setsRegister s t x b) : t.dt = s.dt := by
  obtain ⟨-, -, hframe, -⟩ := h
  rw [hframe]

theorem setsRegister_halt {s t : State} {x : Reg} {b : Byte} (h : setsRegister s t x b) : t.halt = s.halt := by
  obtain ⟨-, -, hframe, -⟩ := h
  rw [hframe]

end Machine

open Machine

/-- Settles O34: the tick is the saturating decrement of each timer, and a record update of those two fields (R185). -/
theorem tickDecrementsNonzeroTimers : Obligations.TickDecrementsNonzeroTimers := fun s =>
  ⟨tickDown_toNat s.dt, tickDown_toNat s.st, rfl⟩

/-- Settles O35: `Fx07` is one register write of DT, and the tick that ends its cycle comes after that write and keeps
the registers (R186, R189). -/
theorem readDelayTimerPrecedesTheTick : Obligations.ReadDelayTimerPrecedesTheTick := by
  have hread : ∀ (x : Reg) (s : State), ∃ t, exec (.ldVxDt x) s = .next t ∧ setsRegister s t x s.dt := fun x s => by
    rw [exec_ldVxDt]
    exact setV_complete_setsRegister s x s.dt
  refine ⟨encodes_xlo (c := 0xF#4) (lo := 0x07#8) fun _ => select_ldVxDt, hread, fun x s hruns => ?_⟩
  obtain ⟨t, hexec, hset⟩ := hread x s
  have hhalt : t.halt = none := (setsRegister_halt hset).trans hruns.1
  refine ⟨t.timerTick, cycleWith_true_ticks hruns hexec hhalt, ?value, ?ticked⟩
  case value => exact (State.timerTick_getV t x).trans hset.1
  case ticked => rw [State.timerTick_dt, tickDown_toNat, setsRegister_dt hset]

end Sys2Proof

namespace Sys2Proof

/-! ## Support for the keyboard: the selector of `Fx0A`, and the two outcomes of the key wait -/

theorem select_ldVxK {d : Descriptor} (hcls : d.cls = 0xF#4) (hlo : d.lo = 0x0A#8) :
    select d = some (.ldVxK (regOf d.x)) := by
  have hclass : select d = selectClassF d := by simp [select, hcls]
  simp [hclass, selectClassF, hlo]

namespace Machine

/-- A stall that raises nothing leaves the whole state as it was (R96). -/
theorem State.complete_stall (s : State) : s.complete .stall = .next s := rfl

/-- With no key pressed, the key wait stalls (R198). -/
theorem exec_ldVxK_of_none {s : State} (x : Reg) (hkeys : lowestKey s.keys = none) :
    exec (.ldVxK x) s = s.complete .stall := by
  change execLdVxK x s = _
  rw [execLdVxK, hkeys]

/-- With a key pressed, the key wait writes the index of the lowest one to V[x] and proceeds (R198). -/
theorem exec_ldVxK_of_some {s : State} (x : Reg) {k : Fin 16} (hkeys : lowestKey s.keys = some k) :
    exec (.ldVxK x) s = (s.setV x (BitVec.ofNat 8 k.val)).complete .next := by
  change execLdVxK x s = _
  rw [execLdVxK, hkeys]

end Machine

open Machine

/-- Settles O41: class 0xF with low byte 0x0A selects the key wait. With no key pressed it stalls, so its cycle is the
tick alone; else it is one register write of the lowest pressed key (R198). -/
theorem keyWaitStallsOrTakesLowestKey : Obligations.KeyWaitStallsOrTakesLowestKey := by
  refine ⟨encodes_xlo (c := 0xF#4) (lo := 0x0A#8) fun _ => select_ldVxK, fun x s => ⟨fun hnone => ?stall, ?take⟩⟩
  case stall =>
    have hexec : exec (.ldVxK x) s = .next s :=
      (exec_ldVxK_of_none x (lowestKey_none.2 hnone)).trans (State.complete_stall s)
    exact ⟨hexec, fun hruns => cycleWith_true_ticks hruns hexec hruns.1⟩
  case take =>
    intro k hpressed hlower
    rw [exec_ldVxK_of_some x (lowestKey_some.2 ⟨hpressed, hlower⟩)]
    exact setV_complete_setsRegister s x (BitVec.ofNat 8 k.val)

end Sys2Proof

namespace Sys2Proof

/-! ## Support for the fatal conditions: what each instruction puts into HALT (R212, R213, R219, R220) -/

namespace Machine

/-- What the bounds check of `count` bytes at I raises (R219). -/
def rangeFault (s : State) (count : Nat) : Option Fault :=
  if rangeInMem s.i count then none else some (.memoryOutOfBounds s.i count)

/-- What the key check of `index` raises (R220). -/
def keyFault (index : Byte) : Option Fault :=
  if index.toNat < 16 then none else some (.keyIndexOutOfRange index)

/-- The fatal condition an instruction raises in `s`, if any. That this is what `exec` does is `exec_halt`. -/
def instrFault (s : State) : Instr → Option Fault
  | .call _ => if s.sp.val = 16 then some (.stackOverflow s.pc) else none
  | .ret => if s.sp.val = 0 then some (.stackUnderflow s.pc) else none
  | .skp x => keyFault (s.getV x)
  | .sknp x => keyFault (s.getV x)
  | .ldB _ => rangeFault s 3
  | .stRegs count => rangeFault s count
  | .ldRegs count => rangeFault s count
  | .drw _ _ height => rangeFault s height
  | _ => none

/-! ### HALT after a shared operation -/

theorem State.halt_of_complete {u t : State} {o : PcOutcome} (h : u.complete o = .next t) : t.halt = u.halt := by
  cases h
  rfl

theorem State.halt_of_raise {s t : State} {f : Fault} (h : s.raise f = .next t) : t.halt = some f := by
  cases h
  rfl

theorem State.halt_of_withRange {s t : State} {count : Nat} {body : Outcome} (h : s.withRange count body = .next t)
    (hbody : body = .next t → t.halt = s.halt) : t.halt = (rangeFault s count).or s.halt := by
  rcases s.withRange_cases count body with ⟨hin, heq⟩ | ⟨hout, heq⟩
  · rw [rangeFault, if_pos hin]
    exact hbody (heq.symm.trans h)
  · rw [rangeFault, if_neg (by simp [hout])]
    exact State.halt_of_raise (heq.symm.trans h)

theorem State.halt_of_withKey {s t : State} {index : Byte} {body : Bool → Outcome} (h : s.withKey index body = .next t)
    (hbody : ∀ b, body b = .next t → t.halt = s.halt) : t.halt = (keyFault index).or s.halt := by
  rcases s.withKey_cases index body with ⟨hlt, heq⟩ | ⟨hge, heq⟩
  · rw [keyFault, if_pos hlt]
    exact hbody _ (heq.symm.trans h)
  · rw [keyFault, if_neg (by omega)]
    exact State.halt_of_raise (heq.symm.trans h)

/-! ### HALT after each instruction -/

theorem exec_skp (x : Reg) (s : State) :
    exec (.skp x) s = s.withKey (s.getV x) fun pressed => s.skipIf pressed := rfl

theorem exec_sknp (x : Reg) (s : State) :
    exec (.sknp x) s = s.withKey (s.getV x) fun pressed => s.skipIf (!pressed) := rfl

theorem halt_of_call {s t : State} {nnn : BitVec 12} (h : exec (.call nnn) s = .next t) :
    t.halt = (instrFault s (.call nnn)).or s.halt := by
  change execCall nnn s = _ at h
  by_cases hfull : s.sp.val = 16
  · rw [execCall, dif_neg (by omega)] at h
    rw [instrFault, if_pos hfull]
    exact State.halt_of_raise h
  · rw [execCall, dif_pos (by omega)] at h
    rw [instrFault, if_neg hfull]
    exact (State.halt_of_complete h :)

theorem halt_of_ret {s t : State} (h : exec .ret s = .next t) : t.halt = (instrFault s .ret).or s.halt := by
  change execRet s = _ at h
  by_cases hempty : s.sp.val = 0
  · rw [execRet, dif_neg (by omega)] at h
    rw [instrFault, if_pos hempty]
    exact State.halt_of_raise h
  · rw [execRet, dif_pos (by omega)] at h
    rw [instrFault, if_neg hempty]
    exact (State.halt_of_complete h :)

theorem halt_of_ldVxK {s t : State} {x : Reg} (h : exec (.ldVxK x) s = .next t) : t.halt = s.halt := by
  cases hkeys : lowestKey s.keys with
  | none =>
    rw [exec_ldVxK_of_none x hkeys] at h
    exact State.halt_of_complete h
  | some k =>
    rw [exec_ldVxK_of_some x hkeys] at h
    exact (State.halt_of_complete h :)

/-- HALT after an instruction: the condition it raises, else as before (R214). The instructions of the last case cannot
raise: each ends in the counter update. -/
theorem exec_halt {i : Instr} {s t : State} (h : exec i s = .next t) : t.halt = (instrFault s i).or s.halt := by
  cases i with
  | call nnn => exact halt_of_call h
  | ret => exact halt_of_ret h
  | skp x => exact State.halt_of_withKey (exec_skp x s ▸ h) fun _ => State.halt_of_complete
  | sknp x => exact State.halt_of_withKey (exec_sknp x s ▸ h) fun _ => State.halt_of_complete
  | ldB x => exact State.halt_of_withRange h State.halt_of_complete
  | stRegs count => exact State.halt_of_withRange h State.halt_of_complete
  | ldRegs count => exact State.halt_of_withRange h State.halt_of_complete
  | drw x y height => exact State.halt_of_withRange h State.halt_of_complete
  | ldVxK x => exact halt_of_ldVxK h
  | _ => exact (State.halt_of_complete h :)

/-! ### Which instruction raises a given condition -/

theorem rangeFault_eq_some {s : State} {count : Nat} {f : Fault} (h : rangeFault s count = some f) :
    f = .memoryOutOfBounds s.i count := by
  rw [rangeFault] at h
  split at h
  · cases h
  · exact (Option.some.inj h).symm

theorem keyFault_eq_some {index : Byte} {f : Fault} (h : keyFault index = some f) : f = .keyIndexOutOfRange index := by
  rw [keyFault] at h
  split at h
  · cases h
  · exact (Option.some.inj h).symm

/-- The conditions of instructions are four: the stack is full at a call, empty at a return, a key index or a range of
memory is out of bounds. -/
theorem instrFault_eq_some {s : State} {i : Instr} {f : Fault} (h : instrFault s i = some f) :
    (f = .stackOverflow s.pc ∧ (∃ nnn, i = .call nnn) ∧ s.sp.val = 16) ∨
    (f = .stackUnderflow s.pc ∧ i = .ret ∧ s.sp.val = 0) ∨
    (∃ index, f = .keyIndexOutOfRange index) ∨ ∃ count, f = .memoryOutOfBounds s.i count := by
  cases i with
  | call nnn =>
    obtain ⟨hfull, hf⟩ := Option.ite_none_right_eq_some.1 h
    exact .inl ⟨(Option.some.inj hf).symm, ⟨nnn, rfl⟩, hfull⟩
  | ret =>
    obtain ⟨hempty, hf⟩ := Option.ite_none_right_eq_some.1 h
    exact .inr (.inl ⟨(Option.some.inj hf).symm, rfl, hempty⟩)
  | skp x => exact .inr (.inr (.inl ⟨_, keyFault_eq_some h⟩))
  | sknp x => exact .inr (.inr (.inl ⟨_, keyFault_eq_some h⟩))
  | ldB x => exact .inr (.inr (.inr ⟨_, rangeFault_eq_some h⟩))
  | stRegs count => exact .inr (.inr (.inr ⟨_, rangeFault_eq_some h⟩))
  | ldRegs count => exact .inr (.inr (.inr ⟨_, rangeFault_eq_some h⟩))
  | drw x y height => exact .inr (.inr (.inr ⟨_, rangeFault_eq_some h⟩))
  | _ => cases h

theorem instrFault_stackOverflow_iff {s : State} {i : Instr} :
    (∃ p, instrFault s i = some (.stackOverflow p)) ↔ (∃ nnn, i = .call nnn) ∧ s.sp.val = 16 := by
  constructor
  · rintro ⟨p, h⟩
    rcases instrFault_eq_some h with ⟨-, hcall⟩ | ⟨hf, -⟩ | ⟨_, hf⟩ | ⟨_, hf⟩
    · exact hcall
    all_goals cases hf
  · rintro ⟨⟨nnn, rfl⟩, hfull⟩
    exact ⟨s.pc, if_pos hfull⟩

theorem instrFault_stackUnderflow_iff {s : State} {i : Instr} :
    (∃ p, instrFault s i = some (.stackUnderflow p)) ↔ i = .ret ∧ s.sp.val = 0 := by
  constructor
  · rintro ⟨p, h⟩
    rcases instrFault_eq_some h with ⟨hf, -⟩ | ⟨-, hret⟩ | ⟨_, hf⟩ | ⟨_, hf⟩
    · cases hf
    · exact hret
    all_goals cases hf
  · rintro ⟨rfl, hempty⟩
    exact ⟨s.pc, if_pos hempty⟩

theorem instrFault_ne_loadOverflow (s : State) (i : Instr) (n : Nat) : instrFault s i ≠ some (.loadOverflow n) := by
  intro h
  rcases instrFault_eq_some h with ⟨hf, -⟩ | ⟨hf, -⟩ | ⟨_, hf⟩ | ⟨_, hf⟩
  all_goals cases hf

end Machine

open Machine

/-- Settles O20: HALT after an instruction of a running machine is `instrFault`, which names the two stack conditions for
the call at depth 16 and for the return at depth 0 alone (R212, R213). -/
theorem stackFaultsExactlyWhenFullOrEmpty : Obligations.StackFaultsExactlyWhenFullOrEmpty := by
  intro i s t hrunning hexec
  have hhalt : t.halt = instrFault s i := by rw [exec_halt hexec, hrunning, Option.or_none]
  rw [hhalt]
  exact ⟨instrFault_stackOverflow_iff, instrFault_stackUnderflow_iff⟩

end Sys2Proof

namespace Sys2Proof

/-! ## Support for LoadOverflow: the two answers of LoadProgram, and what a cycle can put into HALT (R211) -/

namespace Machine

theorem loadProgram_of_le {bytes : List Byte} (s : State) (h : bytes.length ≤ 3584) :
    loadProgram bytes s = .next (s.writeBytes 0x200 bytes) := if_pos h

theorem loadProgram_of_gt {bytes : List Byte} (s : State) (h : 3584 < bytes.length) :
    loadProgram bytes s = .fault (.loadOverflow bytes.length) := if_neg (by omega)

theorem hostStep_loadProgram (tick : Bool) (bytes : List Byte) (s : State) :
    hostStep tick (.loadProgram bytes) s = reportOf s (loadProgram bytes s) := rfl

theorem reportCycle_next_state (s t : State) : (reportCycle s (.next t)).1 = t := by
  cases hhalt : t.halt <;> simp only [reportCycle, hhalt]

/-- A host cycle leaves the state as it was, or takes the next state of the cycle. -/
theorem hostStep_cycle_state (tick : Bool) (s : State) :
    (hostStep tick .cycle s).1 = s ∨ cycleWith tick s = .next (hostStep tick .cycle s).1 := by
  change (reportCycle s (cycleWith tick s)).1 = s ∨ cycleWith tick s = .next (reportCycle s (cycleWith tick s)).1
  cases cycleWith tick s with
  | next t => exact .inr (congrArg Host.Outcome.next (reportCycle_next_state s t).symm)
  | fault f => exact .inl rfl
  | refused r => exact .inl rfl

/-- A cycle that answers a next state has not raised LoadOverflow: neither the fetch nor the dispatcher nor an instruction
does. -/
theorem cycleWith_halt_ne_loadOverflow {tick : Bool} {s t : State} (h : cycleWith tick s = .next t) (n : Nat) :
    t.halt ≠ some (.loadOverflow n) := by
  obtain ⟨hrunning, ⟨-, rfl⟩ | ⟨-, -, rfl⟩ | ⟨i, u, -, -, hexec, rfl⟩⟩ := cycleWith_next h
  · simp
  · simp
  · rw [State.endCycle_halt, exec_halt hexec, hrunning, Option.or_none]
    exact instrFault_ne_loadOverflow s i n

end Machine

open Machine

/-- Settles O57: LoadProgram fails exactly above 3584 bytes, a failure hands the old state back, and no cycle raises
LoadOverflow (R211). -/
theorem loadOverflowLeavesTheMachineUnmodified : Obligations.LoadOverflowLeavesTheMachineUnmodified := by
  refine fun bytes s tick => ⟨fun hlong => ?fails, fun n hfailed => ?onlyThen, fun n hhalt => ?noCycle⟩
  case fails => rw [hostStep_loadProgram, loadProgram_of_gt s hlong, reportOf]
  case onlyThen =>
    by_contra hshort
    rw [hostStep_loadProgram, loadProgram_of_le s (not_lt.1 hshort)] at hfailed
    cases hfailed
  case noCycle =>
    rcases hostStep_cycle_state tick s with hsame | hnext
    · rwa [hsame] at hhalt
    · exact absurd hhalt (cycleWith_halt_ne_loadOverflow hnext n)

end Sys2Proof

namespace Sys2Proof

/-! ## Support for the encoder: every well-formed instruction is read back (R80) -/

/-- The family of Laws/PerInstr.lean, over all instructions. -/
theorem decodeWord_encode {i : Instr} (hwf : i.wellFormed = true) : decodeWord (encode i) = some i := by
  cases i with
  | cls => exact Laws.Encoding.cls hwf
  | ret => exact Laws.Encoding.ret hwf
  | jp nnn => exact Laws.Encoding.jp nnn hwf
  | call nnn => exact Laws.Encoding.call nnn hwf
  | seImm x kk => exact Laws.Encoding.seImm x kk hwf
  | sneImm x kk => exact Laws.Encoding.sneImm x kk hwf
  | seReg x y => exact Laws.Encoding.seReg x y hwf
  | ldImm x kk => exact Laws.Encoding.ldImm x kk hwf
  | addImm x kk => exact Laws.Encoding.addImm x kk hwf
  | ldReg x y => exact Laws.Encoding.ldReg x y hwf
  | or x y => exact Laws.Encoding.or x y hwf
  | and x y => exact Laws.Encoding.and x y hwf
  | xor x y => exact Laws.Encoding.xor x y hwf
  | addReg x y => exact Laws.Encoding.addReg x y hwf
  | sub x y => exact Laws.Encoding.sub x y hwf
  | shr x y => exact Laws.Encoding.shr x y hwf
  | subn x y => exact Laws.Encoding.subn x y hwf
  | shl x y => exact Laws.Encoding.shl x y hwf
  | sneReg x y => exact Laws.Encoding.sneReg x y hwf
  | ldI nnn => exact Laws.Encoding.ldI nnn hwf
  | jpV0 nnn => exact Laws.Encoding.jpV0 nnn hwf
  | rnd x kk => exact Laws.Encoding.rnd x kk hwf
  | drw x y height => exact Laws.Encoding.drw x y height hwf
  | skp x => exact Laws.Encoding.skp x hwf
  | sknp x => exact Laws.Encoding.sknp x hwf
  | ldVxDt x => exact Laws.Encoding.ldVxDt x hwf
  | ldVxK x => exact Laws.Encoding.ldVxK x hwf
  | ldDtVx x => exact Laws.Encoding.ldDtVx x hwf
  | ldStVx x => exact Laws.Encoding.ldStVx x hwf
  | addI x => exact Laws.Encoding.addI x hwf
  | ldF x => exact Laws.Encoding.ldF x hwf
  | ldB x => exact Laws.Encoding.ldB x hwf
  | stRegs count => exact Laws.Encoding.stRegs count hwf
  | ldRegs count => exact Laws.Encoding.ldRegs count hwf

/-- Settles O3: the two bytes give the encoded word back, and that word decodes to its instruction. -/
theorem encodedBytesDecodeBack : Obligations.EncodedBytesDecodeBack := by
  intro i rest hwf
  rw [encodeBytes, decodeBytes_bytesOfWord, decodeWord_encode hwf]

end Sys2Proof

namespace Sys2Proof

/-! ## Support for the decoder: the word of a selected instruction (R74 to R80) -/

/-- A word of format NNN from its class. -/
theorem packAddr_of_cls {w : Word} {c : Nibble} (hcls : (describe w).cls = c) : packAddr c (describe w).nnn = w := by
  rw [← hcls, packAddr_describe]

/-- A word of format XKK from its class. -/
theorem packByte_of_cls {w : Word} {c : Nibble} (hcls : (describe w).cls = c) :
    packByte c (describe w).x (describe w).lo = w := by
  rw [← hcls, packByte_describe]

/-- A word of format X from its class and low byte. -/
theorem packByte_of_cls_lo {w : Word} {c : Nibble} {lo : Byte} (hcls : (describe w).cls = c)
    (hlo : (describe w).lo = lo) : packByte c (describe w).x lo = w := by
  rw [← hlo, packByte_of_cls hcls]

/-- A word of format XY from its class and `n`. -/
theorem packNibbles_of_cls_n {w : Word} {c n : Nibble} (hcls : (describe w).cls = c) (hn : (describe w).n = n) :
    packNibbles c (describe w).x (describe w).y n = w := by
  rw [← hcls, ← hn, packNibbles_describe]

/-- A word of format XY whose `n` is ignored, from its class: `n` reads 0 in the canonical word (R79). -/
theorem packNibbles_zero_n_of_cls {w : Word} {c : Nibble} (hcls : (describe w).cls = c) :
    packNibbles c (describe w).x (describe w).y 0x0#4 = w &&& ~~~ 0x000F#16 := by
  rw [← hcls]
  exact packNibbles_describe_zero_n w

/-- The class nibble from its number. -/
theorem describe_cls_of_toNat {w : Word} {k : Nat} (h : (describe w).cls.toNat = k) :
    (describe w).cls = BitVec.ofNat 4 k := by
  rw [← h, BitVec.ofNat_toNat, BitVec.setWidth_eq]

/-- `w` is the canonical word of `i` but for the bits that `i` ignores (R79, R80). -/
def IsCanonicalWord (w : Word) (i : Instr) : Prop := i.wellFormed = true ∧ encode i = w &&& ~~~ ignoredBits i

theorem isCanonicalWord_of_ignored {w bits : Word} {i : Instr} (hwf : i.wellFormed = true)
    (hbits : ignoredBits i = bits) (henc : encode i = w &&& ~~~ bits) : IsCanonicalWord w i :=
  ⟨hwf, by rw [hbits, henc]⟩

/-- With no ignored bits, the canonical word is the whole word. -/
theorem isCanonicalWord_of_encode {w : Word} {i : Instr} (hwf : i.wellFormed = true) (hbits : ignoredBits i = 0#16)
    (henc : encode i = w) : IsCanonicalWord w i :=
  isCanonicalWord_of_ignored hwf hbits (henc.trans (BitVec.and_allOnes (x := w)).symm)

theorem selectClass0_canonical {w : Word} {i : Instr} (hcls : (describe w).cls = 0x0#4)
    (h : selectClass0 (describe w) = some i) : IsCanonicalWord w i := by
  have henc := packByte_describe_zero_x w
  rw [hcls] at henc
  unfold selectClass0 at h
  split_ifs at h with hlo hlo
  all_goals
    obtain rfl := Option.some.inj h
    rw [hlo] at henc
    exact ⟨rfl, henc⟩

theorem selectClass8_canonical {w : Word} {i : Instr} (hcls : (describe w).cls = 0x8#4)
    (h : selectClass8 (describe w) = some i) : IsCanonicalWord w i := by
  unfold selectClass8 at h
  split_ifs at h with hn hn hn hn hn hn hn hn hn
  all_goals
    obtain rfl := Option.some.inj h
    exact isCanonicalWord_of_encode rfl rfl (packNibbles_of_cls_n hcls hn)

theorem selectClassE_canonical {w : Word} {i : Instr} (hcls : (describe w).cls = 0xE#4)
    (h : selectClassE (describe w) = some i) : IsCanonicalWord w i := by
  unfold selectClassE at h
  split_ifs at h with hlo hlo
  all_goals
    obtain rfl := Option.some.inj h
    exact isCanonicalWord_of_encode rfl rfl (packByte_of_cls_lo hcls hlo)

/-- A nibble used as a count or a height is at most 15. -/
theorem nibble_toNat_le (f : Nibble) : f.toNat ≤ 15 := Nat.le_of_lt_succ f.isLt

theorem selectClassF_canonical {w : Word} {i : Instr} (hcls : (describe w).cls = 0xF#4)
    (h : selectClassF (describe w) = some i) : IsCanonicalWord w i := by
  unfold selectClassF at h
  split_ifs at h with hlo hlo hlo hlo hlo hlo hlo hlo hlo
  case pos | pos | pos | pos | pos | pos | pos =>
    obtain rfl := Option.some.inj h
    exact isCanonicalWord_of_encode rfl rfl (packByte_of_cls_lo hcls hlo)
  all_goals
    obtain rfl := Option.some.inj h
    refine isCanonicalWord_of_encode (decide_eq_true (nibble_toNat_le _)) rfl ?_
    rw [encode, nibbleOfNat_of_toNat, packByte_of_cls_lo hcls hlo]

/-- Class by class (R74): the classes with a second selector, the last of them being what the others leave, then the
formats NNN, XKK and XY, and the sprite. -/
theorem select_canonical {w : Word} {i : Instr} (h : select (describe w) = some i) : IsCanonicalWord w i := by
  unfold select at h
  split at h
  case h_1 hcls => exact selectClass0_canonical (describe_cls_of_toNat hcls) h
  case h_9 hcls => exact selectClass8_canonical (describe_cls_of_toNat hcls) h
  case h_15 hcls => exact selectClassE_canonical (describe_cls_of_toNat hcls) h
  case h_16 h0 h1 h2 h3 h4 h5 h6 h7 h8 h9 hA hB hC hD hE =>
    have hcls : (describe w).cls = 0xF#4 := by
      have := nibble_toNat_le (describe w).cls
      simp only [imp_false] at *
      exact describe_cls_of_toNat (show (describe w).cls.toNat = 15 by omega)
    exact selectClassF_canonical hcls h
  case h_2 hcls | h_3 hcls | h_11 hcls | h_12 hcls =>
    obtain rfl := Option.some.inj h
    exact isCanonicalWord_of_encode rfl rfl (packAddr_of_cls (describe_cls_of_toNat hcls))
  case h_4 hcls | h_5 hcls | h_7 hcls | h_8 hcls | h_13 hcls =>
    obtain rfl := Option.some.inj h
    exact isCanonicalWord_of_encode rfl rfl (packByte_of_cls (describe_cls_of_toNat hcls))
  case h_6 hcls | h_10 hcls =>
    obtain rfl := Option.some.inj h
    exact isCanonicalWord_of_ignored rfl rfl (packNibbles_zero_n_of_cls (describe_cls_of_toNat hcls))
  case h_14 hcls =>
    obtain rfl := Option.some.inj h
    refine isCanonicalWord_of_encode (decide_eq_true (nibble_toNat_le _)) rfl ?_
    rw [encode, nibbleOfNat_of_toNat]
    exact packNibbles_of_cls_n (describe_cls_of_toNat hcls) rfl

/-- Settles O4: class by class, the fields an instruction keeps pack up to the word it was selected from. -/
theorem decodedWordIsTheEncodingUpToIgnoredBits : Obligations.DecodedWordIsTheEncodingUpToIgnoredBits :=
  fun _ _ h => select_canonical h

theorem describe_lo_eq_iff (w : Word) (b : Byte) : (describe w).lo = b ↔ w.toNat % 256 = b.toNat := by
  rw [← describe_lo_toNat, BitVec.toNat_inj]

theorem describe_n_eq_iff (w : Word) (n : Nibble) : (describe w).n = n ↔ w.toNat % 16 = n.toNat := by
  rw [← describe_n_toNat, BitVec.toNat_inj]

theorem describe_x_toNat_eq_wordX (w : Word) : (describe w).x.toNat = (wordX w).val := describe_x_toNat w

/-- Settles O2: the class selects the arm of both tables; where a class has a second selector, its comparisons of fields
are comparisons of the numbers those fields have. -/
theorem dispatchFollowsTheTwoLevelTable : Obligations.DispatchFollowsTheTwoLevelTable := by
  refine ⟨fun w => ?table, fun w s hnone => ?raise⟩
  case raise => rw [Machine.executeWord, hnone, Machine.State.raise_eq]
  case table =>
    rw [decodeWord, select, describe_cls_toNat, regOf_describe_x, regOf_describe_y, describe_lo_eq_wordKk,
      describe_nnn_eq_wordNnn, describe_n_toNat]
    split
    case h_1 =>
      simp only [selectClass0, describe_lo_eq_iff, BitVec.reduceToNat]
      split_ifs <;> simp [*]
    case h_9 =>
      simp only [selectClass8, describe_n_eq_iff, regOf_describe_x, regOf_describe_y, BitVec.reduceToNat]
      split_ifs <;> simp [*]
    case h_15 =>
      simp only [selectClassE, describe_lo_eq_iff, regOf_describe_x, BitVec.reduceToNat]
      split_ifs <;> simp [*]
    case h_16 =>
      simp only [selectClassF, describe_lo_eq_iff, regOf_describe_x, describe_x_toNat_eq_wordX, BitVec.reduceToNat]
      split_ifs <;> simp [*]
    all_goals simp only [*, wordN]

/-- Settles O5: the decoder evaluated at ten fixed words. -/
theorem someWordsDecodeAsWritten : Obligations.SomeWordsDecodeAsWritten := by
  unfold Obligations.SomeWordsDecodeAsWritten
  decide

end Sys2Proof

namespace Sys2Proof

/-! ## Support for the whole-machine rules: what an instruction does, said once

`instrFault` is the condition an instruction raises. When it raises none, the instruction is an effect on the state,
which leaves pc alone, and an outcome that says where pc goes (R93, R96). `exec_of_fault` and `exec_of_noFault` say that
this is what `exec` does; every rule about all instructions is derived from these. -/

namespace Machine

/-- The outcome of a skip whose condition is `b` (R95). -/
def skipWhen (b : Bool) : PcOutcome := if b then .skip else .next

/-- Whether `index` is a key number and that key's flag is `b` (R196, R197). -/
def State.keyIs (s : State) (index : Byte) (b : Bool) : Bool :=
  decide (∃ k : Fin 16, index.toNat = k.val ∧ s.keys[k] = b)

/-- What the key wait leaves in V[x]: the lowest pressed key, or V[x] itself while there is none (R198). -/
def State.keyTaken (s : State) (x : Reg) : Byte :=
  match lowestKey s.keys with
  | none => s.getV x
  | some k => BitVec.ofNat 8 k.val

/-- Where the key wait sends pc (R198). -/
def State.keyWait (s : State) : PcOutcome := if (lowestKey s.keys).isSome then .next else .stall

/-- The stack with a return address pushed, where it has room (R132). -/
def State.pushed (s : State) : State :=
  { s with
    stack := s.stack.setIfInBounds s.sp.val (advance s.pc.toNat)
    sp := ⟨min (s.sp.val + 1) 16, by omega⟩ }

/-- The stack with one entry less in use, where there is one (R133). -/
def State.popped (s : State) : State := { s with sp := ⟨s.sp.val - 1, by omega⟩ }

/-- The last entry in use, where there is one (R133). -/
def State.lastEntry (s : State) : Word := s.stack[s.sp.val - 1]'(by omega)

/-- The framebuffer and collision of `Dxyn` (R172). -/
def State.sprite (s : State) (x y : Reg) (height : Nat) : Framebuffer × Bool :=
  drawRows (s.getV x).toNat (s.getV y).toNat (s.readBytes s.i.toNat height) (s.fb, false)

/-- The state after `Dxyn` but for pc (R172). -/
def State.drawn (s : State) (x y : Reg) (height : Nat) : State :=
  ({ s with fb := (s.sprite x y height).1 }).setV flagReg (flagByte (s.sprite x y height).2)

/-- The state after an instruction that raises nothing, but for pc. -/
def effect (s : State) : Instr → State
  | .cls => { s with fb := darkFb }
  | .ret => s.popped
  | .call _ => s.pushed
  | .ldImm x kk => s.setV x kk
  | .addImm x kk => s.setV x (s.getV x + kk)
  | .ldReg x y => s.setV x (s.getV y)
  | .or x y => s.setV x (s.getV x ||| s.getV y)
  | .and x y => s.setV x (s.getV x &&& s.getV y)
  | .xor x y => s.setV x (s.getV x ^^^ s.getV y)
  | .addReg x y => s.resultThenFlag x (s.getV x + s.getV y) (carry (s.getV x) (s.getV y))
  | .sub x y => s.resultThenFlag x (s.getV x - s.getV y) (noBorrow (s.getV x) (s.getV y))
  | .shr x _ => s.flagThenResult x (s.getV x >>> 1) (lowBit (s.getV x))
  | .subn x y => s.resultThenFlag x (s.getV y - s.getV x) (noBorrow (s.getV y) (s.getV x))
  | .shl x _ => s.flagThenResult x (s.getV x <<< 1) (highBit (s.getV x))
  | .ldI nnn => s.setI (addrOf nnn)
  | .rnd x kk => { s.setV x (Config.draw8 s.draws &&& kk) with draws := s.draws + 1 }
  | .drw x y height => s.drawn x y height
  | .ldVxDt x => s.setV x s.dt
  | .ldVxK x => s.setV x (s.keyTaken x)
  | .ldDtVx x => { s with dt := s.getV x }
  | .ldStVx x => { s with st := s.getV x }
  | .addI x => s.setI (s.i + zext16 (s.getV x))
  | .ldF x => s.setI (glyphAddr (s.getV x))
  | .ldB x => s.writeBytes s.i.toNat (decimalDigits (s.getV x))
  | .stRegs count => s.writeBytes s.i.toNat (s.v.toList.take count)
  | .ldRegs count => { s with v := loadRegs s.v 0 (s.readBytes s.i.toNat count) }
  | _ => s

/-- Where an instruction that raises nothing sends pc (R95). -/
def pcOutcome (s : State) : Instr → PcOutcome
  | .ret => .jump s.lastEntry
  | .jp nnn => .jump (addrOf nnn)
  | .call nnn => .jump (addrOf nnn)
  | .jpV0 nnn => .jump (addrOf nnn + zext16 (s.getV 0))
  | .seImm x kk => skipWhen (s.getV x = kk)
  | .sneImm x kk => skipWhen (s.getV x ≠ kk)
  | .seReg x y => skipWhen (s.getV x = s.getV y)
  | .sneReg x y => skipWhen (s.getV x ≠ s.getV y)
  | .skp x => skipWhen (s.keyIs (s.getV x) true)
  | .sknp x => skipWhen (s.keyIs (s.getV x) false)
  | .ldVxK _ => s.keyWait
  | _ => .next

/-! ### The shared operations when they raise and when they do not -/

theorem State.withRange_of_fault {s : State} {count : Nat} {f : Fault} (h : rangeFault s count = some f)
    (body : Outcome) :
    s.withRange count body = .next { s with halt := some f } := by
  rcases s.withRange_cases count body with ⟨hin, -⟩ | ⟨-, heq⟩
  · rw [rangeFault, if_pos hin] at h
    cases h
  · rw [heq, rangeFault_eq_some h]

theorem State.withRange_of_noFault {s : State} {count : Nat} (h : rangeFault s count = none) (body : Outcome) :
    s.withRange count body = body := by
  rcases s.withRange_cases count body with ⟨-, heq⟩ | ⟨hout, -⟩
  · exact heq
  · rw [rangeFault, hout] at h
    cases h

theorem State.withKey_of_fault {s : State} {index : Byte} {f : Fault} (h : keyFault index = some f)
    (body : Bool → Outcome) : s.withKey index body = .next { s with halt := some f } := by
  rcases s.withKey_cases index body with ⟨hlt, -⟩ | ⟨-, heq⟩
  · rw [keyFault, if_pos hlt] at h
    cases h
  · rw [heq, keyFault_eq_some h]

theorem keyFault_eq_none_iff {index : Byte} : keyFault index = none ↔ index.toNat < 16 := by
  rw [keyFault]
  split <;> simp [*]

theorem State.withKey_of_lt {s : State} {index : Byte} (hlt : index.toNat < 16) (body : Bool → Outcome) :
    s.withKey index body = body s.keys[index.toNat] := dif_pos hlt

/-- Whether a key number's flag is `b`, by looking it up. -/
theorem State.keyIs_of_lt {s : State} {index : Byte} (hlt : index.toNat < 16) (b : Bool) :
    s.keyIs index b = (s.keys[index.toNat] == b) := by
  rw [Bool.eq_iff_iff, State.keyIs, decide_eq_true_iff, beq_iff_eq]
  constructor
  · rintro ⟨⟨k, _⟩, hk, hflag⟩
    obtain rfl : index.toNat = k := hk
    exact hflag
  · exact fun hflag => ⟨⟨index.toNat, hlt⟩, rfl, hflag⟩

/-! ### The instruction that raises, and the one that does not -/

/-- An instruction that raises changes HALT alone (R214). -/
theorem exec_of_fault {i : Instr} {s : State} {f : Fault} (h : instrFault s i = some f) :
    exec i s = .next { s with halt := some f } := by
  cases i with
  | call nnn =>
    obtain ⟨hfull, hf⟩ := Option.ite_none_right_eq_some.1 h
    change execCall nnn s = _
    rw [execCall, dif_neg (by omega), ← hf, State.raise_eq]
  | ret =>
    obtain ⟨hempty, hf⟩ := Option.ite_none_right_eq_some.1 h
    change execRet s = _
    rw [execRet, dif_neg (by omega), ← hf, State.raise_eq]
  | skp x => exact State.withKey_of_fault h _
  | sknp x => exact (exec_sknp x s).trans (State.withKey_of_fault h _)
  | ldB x => exact State.withRange_of_fault h _
  | stRegs count => exact State.withRange_of_fault h _
  | ldRegs count => exact State.withRange_of_fault h _
  | drw x y height => exact State.withRange_of_fault h _
  | _ => cases h

/-- Writing a register with its own value changes nothing. -/
@[simp] theorem State.setV_getV (s : State) (x : Reg) : s.setV x (s.getV x) = s := by
  simp [State.setV, State.getV]

theorem exec_ldVxK (x : Reg) (s : State) : exec (.ldVxK x) s = (s.setV x (s.keyTaken x)).complete s.keyWait := by
  cases hkeys : lowestKey s.keys with
  | none =>
    rw [exec_ldVxK_of_none x hkeys, State.keyTaken, State.keyWait, hkeys]
    exact congrArg (State.complete · .stall) (State.setV_getV s x).symm
  | some k =>
    rw [exec_ldVxK_of_some x hkeys, State.keyTaken, State.keyWait, hkeys]
    rfl

theorem exec_call_of_room {s : State} (nnn : BitVec 12) (h : s.sp.val < 16) :
    exec (.call nnn) s = s.pushed.complete (.jump (addrOf nnn)) := by
  change execCall nnn s = _
  have hstack : s.stack.setIfInBounds s.sp.val (advance s.pc.toNat) = s.stack.set s.sp.val (advance s.pc.toNat) h := by
    apply Vector.ext
    intro j hj
    rw [Vector.getElem_setIfInBounds, Vector.getElem_set]
  have hsp : min (s.sp.val + 1) 16 = s.sp.val + 1 := by omega
  simp only [execCall, dif_pos h, State.pushed, hstack, hsp]

theorem exec_ret_of_used {s : State} (h : 0 < s.sp.val) : exec .ret s = s.popped.complete (.jump s.lastEntry) := by
  change execRet s = _
  rw [execRet, dif_pos h]
  rfl

/-- An instruction that raises nothing has its effect, and then the counter update of its outcome (R93, R96). -/
theorem exec_of_noFault {i : Instr} {s : State} (h : instrFault s i = none) :
    exec i s = (effect s i).complete (pcOutcome s i) := by
  cases i with
  | call nnn =>
    have hroom : s.sp.val ≠ 16 := fun hfull => by rw [instrFault, if_pos hfull] at h; cases h
    exact exec_call_of_room nnn (by omega)
  | ret =>
    have hused : s.sp.val ≠ 0 := fun hempty => by rw [instrFault, if_pos hempty] at h; cases h
    exact exec_ret_of_used (by omega)
  | skp x =>
    have hlt := keyFault_eq_none_iff.1 h
    rw [exec_skp, State.withKey_of_lt hlt, pcOutcome, State.keyIs_of_lt hlt, beq_true]
    rfl
  | sknp x =>
    have hlt := keyFault_eq_none_iff.1 h
    rw [exec_sknp, State.withKey_of_lt hlt, pcOutcome, State.keyIs_of_lt hlt, beq_false]
    rfl
  | ldB x => exact State.withRange_of_noFault h _
  | stRegs count => exact State.withRange_of_noFault h _
  | ldRegs count => exact State.withRange_of_noFault h _
  | drw x y height => exact State.withRange_of_noFault h _
  | ldVxK x => exact exec_ldVxK x s
  | _ => rfl

theorem effect_pc (s : State) (i : Instr) : (effect s i).pc = s.pc := by
  cases i <;> rfl

/-- An instruction answers one of two things: the state with HALT set, or its effect with pc where its outcome sends
it. -/
theorem exec_next {i : Instr} {s t : State} (h : exec i s = .next t) :
    (∃ f, instrFault s i = some f ∧ t = { s with halt := some f }) ∨
    (instrFault s i = none ∧ t = { effect s i with pc := newPc s.pc (pcOutcome s i) }) := by
  cases hfault : instrFault s i with
  | some f =>
    rw [exec_of_fault hfault] at h
    exact .inl ⟨f, rfl, (Host.Outcome.next.inj h).symm⟩
  | none =>
    rw [exec_of_noFault hfault, State.complete_eq, effect_pc] at h
    exact .inr ⟨rfl, (Host.Outcome.next.inj h).symm⟩

end Machine
end Sys2Proof

namespace Sys2Proof

/-! ## Support for the whole-machine rules: the answer of a cycle, forwards -/

namespace Machine

/-- The state after an instruction that raises nothing. -/
def State.afterInstr (s : State) (i : Instr) : State := { effect s i with pc := newPc s.pc (pcOutcome s i) }

@[simp] theorem effect_halt (s : State) (i : Instr) : (effect s i).halt = s.halt := by
  cases i <;> rfl

@[simp] theorem State.afterInstr_halt (s : State) (i : Instr) : (s.afterInstr i).halt = s.halt := effect_halt s i

theorem cycleWith_of_fetchFault {s : State} (tick : Bool) (hrunning : s.halt = none) (hpc : 0xFFF ≤ s.pc.toNat) :
    cycleWith tick s = .next { s with halt := some (.fetchOutOfBounds s.pc) } := by
  simp only [cycleWith, hrunning, fetch_eq, if_neg (show ¬ s.pc.toNat + 1 ≤ 0xFFF by omega), State.raise_eq]

theorem cycleWith_of_unrecognized {s : State} (tick : Bool) (hrunning : s.halt = none) (hpc : s.pc.toNat < 0xFFF)
    (hword : decodeWord (wordAt s) = none) :
    cycleWith tick s = .next { s with halt := some (.unrecognizedInstruction (wordAt s) s.pc) } := by
  simp only [cycleWith, hrunning, fetch_eq, if_pos (show s.pc.toNat + 1 ≤ 0xFFF by omega), executeWord, hword,
    State.raise_eq, mapNext, State.endCycle]

/-- A cycle whose instruction raises answers the state with HALT set, and does not tick (R97, R214). -/
theorem cycleWith_of_fault {s : State} {i : Instr} {f : Fault} (tick : Bool) (hruns : s.runs i)
    (hfault : instrFault s i = some f) : cycleWith tick s = .next { s with halt := some f } := by
  rw [cycleWith_runs hruns, exec_of_fault hfault, mapNext, State.endCycle_halted rfl]

/-- A cycle whose instruction raises nothing ends on what the instruction leaves (R90, R97). -/
theorem cycleWith_of_noFault {s : State} {i : Instr} (tick : Bool) (hruns : s.runs i) (hfault : instrFault s i = none) :
    cycleWith tick s = .next (if tick then (s.afterInstr i).timerTick else s.afterInstr i) := by
  have hhalt : (s.afterInstr i).halt = none := (State.afterInstr_halt s i).trans hruns.1
  rw [cycleWith_runs hruns, exec_of_noFault hfault, State.complete_eq, effect_pc, mapNext,
    ← State.endCycle_running hhalt]
  rfl

/-- A running machine is in one of three situations: the fetch faults, the word is unrecognised, or an instruction
runs. -/
theorem State.running_cases {s : State} (hrunning : s.halt = none) :
    0xFFF ≤ s.pc.toNat ∨ (s.pc.toNat < 0xFFF ∧ decodeWord (wordAt s) = none) ∨ ∃ i, s.runs i := by
  rcases Nat.lt_or_ge s.pc.toNat 0xFFF with hlt | hge
  · cases hword : decodeWord (wordAt s) with
    | none => exact .inr (.inl ⟨hlt, rfl⟩)
    | some i => exact .inr (.inr ⟨i, hrunning, hlt, hword⟩)
  · exact .inl hge

/-- A cycle that answers a next state raises, with no other effect, or runs an instruction to its end. -/
theorem cycleWith_next_cases {tick : Bool} {s t : State} (h : cycleWith tick s = .next t) :
    (∃ f, t = { s with halt := some f }) ∨
    ∃ i, s.runs i ∧ instrFault s i = none ∧ t = if tick then (s.afterInstr i).timerTick else s.afterInstr i := by
  obtain ⟨hrunning, ⟨-, ht⟩ | ⟨-, -, ht⟩ | ⟨i, u, hpc, hword, -, -⟩⟩ := cycleWith_next h
  · exact .inl ⟨_, ht⟩
  · exact .inl ⟨_, ht⟩
  · have hruns : s.runs i := ⟨hrunning, hpc, hword⟩
    cases hfault : instrFault s i with
    | some f => exact .inl ⟨f, Host.Outcome.next.inj (h.symm.trans (cycleWith_of_fault tick hruns hfault))⟩
    | none =>
      exact .inr ⟨i, hruns, hfault, Host.Outcome.next.inj (h.symm.trans (cycleWith_of_noFault tick hruns hfault))⟩

theorem hostStep_cycle (tick : Bool) (s : State) : hostStep tick .cycle s = reportCycle s (cycleWith tick s) := rfl

theorem reportCycle_of_halted {s t : State} {f : Fault} (h : t.halt = some f) :
    reportCycle s (.next t) = (t, .failed f) := by
  simp only [reportCycle, h]

theorem reportCycle_of_running {s t : State} (h : t.halt = none) : reportCycle s (.next t) = (t, .ok) := by
  simp only [reportCycle, h]

/-- The two bytes at pc are the word there (R53). -/
theorem wordOfBytes_read (s : State) : wordOfBytes (s.read s.pc.toNat) (s.read (s.pc.toNat + 1)) = wordAt s := by
  apply BitVec.eq_of_toNat_eq
  have := (wordOfBytes (s.read s.pc.toNat) (s.read (s.pc.toNat + 1))).isLt
  rw [wordOfBytes_toNat] at this ⊢
  rw [wordAt, BitVec.toNat_ofNat, Nat.mod_eq_of_lt this]

theorem decodeBytes_pair {hi lo : Byte} {i : Instr} (h : decodeBytes [hi, lo] = .ok (i, [])) :
    decodeWord (wordOfBytes hi lo) = some i := by
  simp only [decodeBytes] at h
  cases hword : decodeWord (wordOfBytes hi lo) with
  | none => rw [hword] at h; cases h
  | some j => rw [hword] at h; cases h; rfl

end Machine

open Machine

/-- Settles O43: the pair decodes to what the dispatcher selects, and the cycle ends on what `exec` answers. -/
theorem stepRunsTheDecodedInstruction : Obligations.StepRunsTheDecodedInstruction := by
  intro s i hrunning hpc hbytes
  have hword : decodeWord (wordAt s) = some i := (wordOfBytes_read s) ▸ decodeBytes_pair hbytes
  have hcycle : ∀ {t} tick, exec i s = .next t → cycleWith tick s = .next (t.endCycle tick) := fun tick hexec => by
    rw [cycleWith_runs ⟨hrunning, hpc, hword⟩, hexec, mapNext]
  refine ⟨(select_canonical hword).1, fun t hexec hhalt => ?completes, fun t hexec hhalt => ?raises⟩
  case completes =>
    have hended : ∀ tick, cycleWith tick s = .next (if tick then t.timerTick else t) := fun tick => by
      rw [hcycle tick hexec, State.endCycle_running hhalt]
    exact ⟨hended true, hended true, hended false⟩
  case raises =>
    obtain ⟨f, hf⟩ := Option.ne_none_iff_exists'.1 hhalt
    have hraised : ∀ tick, cycleWith tick s = .next t := fun tick => by
      rw [hcycle tick hexec, State.endCycle_halted hf]
    exact ⟨hraised true, hraised⟩

/-- Settles O44: the two conditions of a cycle before execution, each from its own equation. -/
theorem fetchAndDispatchFaults : Obligations.FetchAndDispatchFaults := fun _ tick hrunning =>
  ⟨cycleWith_of_fetchFault tick hrunning, cycleWith_of_unrecognized tick hrunning⟩

/-- Settles O48: an instruction raises or completes, and a running machine is in one of three situations, each with an
answer. -/
theorem everyInstructionAndCycleAnswers : Obligations.EveryInstructionAndCycleAnswers := by
  refine ⟨fun i s => ?instruction, fun s tick hrunning => ?cycle⟩
  case instruction =>
    cases hfault : instrFault s i with
    | some f => exact ⟨_, exec_of_fault hfault⟩
    | none => exact ⟨_, exec_of_noFault hfault⟩
  case cycle =>
    rcases s.running_cases hrunning with hpc | ⟨hpc, hword⟩ | ⟨i, hruns⟩
    · exact ⟨_, cycleWith_of_fetchFault tick hrunning hpc⟩
    · exact ⟨_, cycleWith_of_unrecognized tick hrunning hpc hword⟩
    · cases hfault : instrFault s i with
      | some f => exact ⟨_, cycleWith_of_fault tick hruns hfault⟩
      | none => exact ⟨_, cycleWith_of_noFault tick hruns hfault⟩

/-- Settles O46: a cycle that ends halted is the one that raised, since an instruction that raises nothing leaves
HALT at none. -/
theorem faultsArePreciseAndReported : Obligations.FaultsArePreciseAndReported := by
  intro s t tick h
  rw [hostStep_cycle, h]
  refine ⟨fun f hhalt => ⟨?precise, reportCycle_of_halted hhalt⟩, reportCycle_of_running⟩
  case precise =>
    rcases cycleWith_next_cases h with ⟨g, rfl⟩ | ⟨i, hruns, -, rfl⟩
    · rw [← hhalt]
    · have hnone : (s.afterInstr i).halt = none := (State.afterInstr_halt s i).trans hruns.1
      rw [← State.endCycle_running hnone, State.endCycle_halt, hnone] at hhalt
      cases hhalt

end Sys2Proof

namespace Sys2Proof

/-! ## Support for the counter update: the outcome of every instruction in words (R95) -/

namespace Machine

theorem skipWhen_of {p : Prop} [Decidable p] (h : p) : skipWhen p = .skip := if_pos (decide_eq_true h)

theorem skipWhen_of_not {p : Prop} [Decidable p] (h : ¬ p) : skipWhen p = .next := if_neg (by simpa using h)

theorem pcOutcome_of_stalls {s : State} {i : Instr} (h : stallsOn s i) : pcOutcome s i = .stall := by
  obtain ⟨⟨x, rfl⟩, hkeys⟩ := h
  rw [pcOutcome, State.keyWait, lowestKey_none.2 hkeys]
  rfl

theorem pcOutcome_of_skipTaken {s : State} {i : Instr} (h : skipTaken s i) : pcOutcome s i = .skip := by
  cases i with
  | seImm x kk | sneImm x kk | seReg x y | sneReg x y | skp x | sknp x => exact skipWhen_of h
  | _ => cases h

theorem pcOutcome_of_neither {s : State} {i : Instr} (hset : repositions i = false) (hstall : ¬ stallsOn s i)
    (hskip : ¬ skipTaken s i) : pcOutcome s i = .next := by
  cases i with
  | seImm x kk | sneImm x kk | seReg x y | sneReg x y | skp x | sknp x =>
    exact skipWhen_of_not hskip
  | ldVxK x =>
    exact if_pos (Option.isSome_iff_ne_none.2 fun hnone => hstall ⟨⟨x, rfl⟩, lowestKey_none.1 hnone⟩)
  | jp | call | jpV0 | ret => cases hset
  | _ => rfl

/-- An instruction that does not end halted leaves `afterInstr`. -/
theorem exec_next_of_running {i : Instr} {s t : State} (h : exec i s = .next t) (hhalt : t.halt = none) :
    t = s.afterInstr i := by
  rcases exec_next h with ⟨f, -, rfl⟩ | ⟨-, ht⟩
  · cases hhalt
  · exact ht

end Machine

open Machine

/-- Settles O16: pc after an instruction that raises nothing is the counter update of its outcome. -/
theorem counterUpdateFollowsTheOutcome : Obligations.CounterUpdateFollowsTheOutcome := by
  intro i s t _ hexec hhalt hset
  have hpc : t.pc = newPc s.pc (pcOutcome s i) := by rw [exec_next_of_running hexec hhalt, State.afterInstr]
  refine ⟨fun hstall => ?stall, fun hskip => ?skip, fun hstall hskip => ?next⟩
  case stall => rw [hpc, pcOutcome_of_stalls hstall, newPc]
  case skip => rw [hpc, pcOutcome_of_skipTaken hskip, newPc]
  case next => rw [hpc, pcOutcome_of_neither hset hstall hskip, newPc]

end Sys2Proof

namespace Sys2Proof

/-! ## Support for the rule of who writes what: every field after the effect of an instruction (R38) -/

namespace Machine

/-- Whether register `r` is among the ones the form of `i` writes (R21, R22). -/
def mayWriteReg (i : Instr) (r : Reg) : Prop :=
  resultReg i = some r ∨ (r = 0xF ∧ writesFlag i = true) ∨ ∃ count, i = .ldRegs count ∧ r.val < count

theorem State.getV_setV_eq_or (s : State) (x r : Reg) (b : Byte) : (s.setV x b).getV r = s.getV r ∨ r = x := by
  rw [State.getV_setV]
  by_cases h : r = x
  · exact .inr h
  · exact .inl (if_neg h)

/-- The two writes of a flag-writing instruction reach two registers at most. -/
theorem State.getV_setV_setV_eq_or (s : State) (x y r : Reg) (b c : Byte) :
    ((s.setV x b).setV y c).getV r = s.getV r ∨ r = x ∨ r = y := by
  rcases (s.setV x b).getV_setV_eq_or y r c with h | h
  · exact (s.getV_setV_eq_or x r b).imp h.trans .inl
  · exact .inr (.inr h)

/-- The registers after a load from memory (R156). -/
theorem State.getV_loadRegs (s : State) (a count : Nat) (r : Reg) :
    ({ s with v := loadRegs s.v 0 (s.readBytes a count) } : State).getV r
      = if r.val < count then s.read (a + r.val) else s.getV r := by
  refine (loadRegs_getElem s.v 0 _ r.val r.isLt).trans ?_
  simp only [State.readBytes_length, State.getElem_readBytes]
  by_cases h : r.val < count
  · simp [h]
  · simp [h, State.getV]

theorem effect_getV (s : State) (i : Instr) (r : Reg) : (effect s i).getV r = s.getV r ∨ mayWriteReg i r := by
  cases i with
  | ldImm x _ | addImm x _ | ldReg x _ | or x _ | and x _ | xor x _ | rnd x _ | ldVxDt x | ldVxK x =>
    exact (s.getV_setV_eq_or x r _).imp_right fun h => .inl (congrArg some h.symm)
  | addReg x _ | sub x _ | subn x _ =>
    exact (s.getV_setV_setV_eq_or x flagReg r _ _).imp_right
      (Or.imp (fun h => congrArg some h.symm) fun h => .inl ⟨h, rfl⟩)
  | shr x _ | shl x _ =>
    exact (s.getV_setV_setV_eq_or flagReg x r _ _).imp_right fun h =>
      h.symm.imp (fun h => congrArg some h.symm) fun h => .inl ⟨h, rfl⟩
  | drw x y height =>
    exact (State.getV_setV_eq_or _ flagReg r _).imp_right fun h => .inr (.inl ⟨h, rfl⟩)
  | ldRegs count =>
    by_cases h : r.val < count
    · exact .inr (.inr (.inr ⟨count, rfl, h⟩))
    · exact .inl ((s.getV_loadRegs _ count r).trans (if_neg h))
  | _ => exact .inl rfl

theorem effect_keys (s : State) (i : Instr) : (effect s i).keys = s.keys := by
  cases i <;> rfl

theorem effect_font (s : State) (i : Instr) : (effect s i).font = s.font := by
  cases i <;> rfl

theorem effect_mem (s : State) (i : Instr) :
    (effect s i).mem = s.mem ∨ (∃ x, i = .ldB x) ∨ ∃ count, i = .stRegs count := by
  cases i with
  | ldB x => exact .inr (.inl ⟨x, rfl⟩)
  | stRegs count => exact .inr (.inr ⟨count, rfl⟩)
  | _ => exact .inl rfl

theorem effect_i (s : State) (i : Instr) :
    (effect s i).i = s.i ∨ (∃ nnn, i = .ldI nnn) ∨ (∃ x, i = .addI x) ∨ ∃ x, i = .ldF x := by
  cases i with
  | ldI nnn => exact .inr (.inl ⟨nnn, rfl⟩)
  | addI x => exact .inr (.inr (.inl ⟨x, rfl⟩))
  | ldF x => exact .inr (.inr (.inr ⟨x, rfl⟩))
  | _ => exact .inl rfl

theorem effect_sp (s : State) (i : Instr) : (effect s i).sp = s.sp ∨ (∃ nnn, i = .call nnn) ∨ i = .ret := by
  cases i with
  | call nnn => exact .inr (.inl ⟨nnn, rfl⟩)
  | ret => exact .inr (.inr rfl)
  | _ => exact .inl rfl

theorem effect_stack (s : State) (i : Instr) : (effect s i).stack = s.stack ∨ ∃ nnn, i = .call nnn := by
  cases i with
  | call nnn => exact .inr ⟨nnn, rfl⟩
  | _ => exact .inl rfl

theorem effect_dt (s : State) (i : Instr) : (effect s i).dt = s.dt ∨ ∃ x, i = .ldDtVx x := by
  cases i with
  | ldDtVx x => exact .inr ⟨x, rfl⟩
  | _ => exact .inl rfl

theorem effect_st (s : State) (i : Instr) : (effect s i).st = s.st ∨ ∃ x, i = .ldStVx x := by
  cases i with
  | ldStVx x => exact .inr ⟨x, rfl⟩
  | _ => exact .inl rfl

theorem effect_fb (s : State) (i : Instr) : (effect s i).fb = s.fb ∨ i = .cls ∨ ∃ x y height, i = .drw x y height := by
  cases i with
  | cls => exact .inr (.inl rfl)
  | drw x y height => exact .inr (.inr ⟨x, y, height, rfl⟩)
  | _ => exact .inl rfl

theorem effect_draws (s : State) (i : Instr) : (effect s i).draws = s.draws ∨ ∃ x kk, i = .rnd x kk := by
  cases i with
  | rnd x kk => exact .inr ⟨x, kk, rfl⟩
  | _ => exact .inl rfl

theorem canRaise_of_fault {s : State} {i : Instr} {f : Fault} (h : instrFault s i = some f) : canRaise i = true := by
  cases i with
  | call | ret | skp | sknp | ldB | stRegs | ldRegs | drw => rfl
  | _ => cases h

/-- The registers an instruction leaves, raising or not. -/
theorem exec_getV {i : Instr} {s t : State} (h : exec i s = .next t) (r : Reg) :
    t.getV r = s.getV r ∨ mayWriteReg i r := by
  rcases exec_next h with ⟨f, -, rfl⟩ | ⟨-, rfl⟩
  · exact .inl rfl
  · exact effect_getV s i r

theorem exec_font {i : Instr} {s t : State} (h : exec i s = .next t) : t.font = s.font := by
  rcases exec_next h with ⟨f, -, rfl⟩ | ⟨-, rfl⟩
  · rfl
  · exact effect_font s i

/-! ### Stores -/

theorem State.read_writeBytes_outside (s : State) {a c : Nat} {bs : List Byte} (h : c < a ∨ a + bs.length ≤ c) :
    (s.writeBytes a bs).read c = s.read c := by
  rw [State.read_writeBytes, dif_neg (by omega)]

theorem effect_read (s : State) (i : Instr) {a : Nat} (h : a < s.i.toNat ∨ s.i.toNat + storedBytes i ≤ a) :
    (effect s i).read a = s.read a := by
  cases i with
  | ldB x => exact s.read_writeBytes_outside h
  | stRegs count =>
    have hlen : (s.v.toList.take count).length ≤ count := List.length_take_le count _
    exact s.read_writeBytes_outside (h.imp_right (Nat.add_le_add_left hlen _).trans)
  | _ => rfl

/-! ### The flag -/

theorem flagByte_eq_or (b : Bool) : flagByte b = 0#8 ∨ flagByte b = 1#8 := by
  cases b
  · exact .inl rfl
  · exact .inr rfl

/-- A flag writer whose result goes elsewhere leaves a flag in V[0xF]. -/
theorem effect_flag (s : State) {i : Instr} (hflag : writesFlag i = true) (hresult : resultReg i ≠ some 0xF) :
    ∃ b, (effect s i).getV 0xF = flagByte b := by
  cases i with
  | addReg x y | sub x y | subn x y => exact ⟨_, (s.getV_resultThenFlag x 0xF _ _).trans (if_pos rfl)⟩
  | shr x y | shl x y =>
    have hx : (0xF : Reg) ≠ x := fun h => hresult (congrArg some h.symm)
    exact ⟨_, (s.getV_flagThenResult x 0xF _ _).trans ((if_neg hx).trans (if_pos rfl))⟩
  | drw x y height => exact ⟨_, (State.getV_setV _ flagReg 0xF _).trans (if_pos rfl)⟩
  | _ => cases hflag

end Machine

open Machine

/-- Settles O49: an instruction that raises writes HALT alone; one that does not writes the fields of its effect, and
pc. -/
theorem onlyTheListedWritersWrite : Obligations.OnlyTheListedWritersWrite := by
  intro i s t hexec
  refine ⟨exec_getV hexec, ?_⟩
  rcases exec_next hexec with ⟨f, hfault, rfl⟩ | ⟨-, rfl⟩
  · exact ⟨rfl, .inl rfl, .inl rfl, .inl rfl, .inl rfl, .inl rfl, .inl rfl, .inl rfl,
      .inr ⟨canRaise_of_fault hfault, rfl⟩, .inl rfl, rfl⟩
  · exact ⟨effect_keys s i, effect_mem s i, effect_i s i, effect_sp s i, effect_stack s i, effect_dt s i, effect_st s i,
      effect_fb s i, .inl (effect_halt s i), effect_draws s i, effect_font s i⟩

/-- Settles O50: the two instructions that store write a run of bytes from I, of three and of at most `count`. -/
theorem storesStayInTheirRange : Obligations.StoresStayInTheirRange := by
  intro i s t a hexec houtside
  rcases exec_next hexec with ⟨f, -, rfl⟩ | ⟨-, rfl⟩
  · rfl
  · exact effect_read s i houtside

/-- Settles O51: the registers by who may write them, and the flag writers case by case. -/
theorem onlySixInstructionsWriteTheFlag : Obligations.OnlySixInstructionsWriteTheFlag := by
  intro i s t hexec
  refine ⟨fun r => (exec_getV hexec r).imp_right (Or.imp_right (Or.imp_left And.symm)), fun hflag hresult _ hhalt => ?_⟩
  obtain ⟨b, hb⟩ := effect_flag s hflag hresult
  have ht : t.getV 0xF = flagByte b := by
    rw [exec_next_of_running hexec hhalt]
    exact hb
  exact ht ▸ flagByte_eq_or b

end Sys2Proof

namespace Sys2Proof

/-! ## Support for the fatal conditions: when each check raises (R212, R213, R219, R220) -/

namespace Machine

theorem keyFault_some_gt {index : Byte} {f : Fault} (h : keyFault index = some f) : 15 < index.toNat := by
  by_contra hle
  rw [keyFault_eq_none_iff.2 (by omega)] at h
  cases h

theorem rangeFault_some_bounds {s : State} {count : Nat} {f : Fault} (h : rangeFault s count = some f) :
    0 < count ∧ 0xFFF < s.i.toNat + count - 1 := by
  have hout : ¬ (count = 0 ∨ s.i.toNat + count - 1 ≤ 0xFFF) := fun hin => by
    rw [rangeFault, if_pos ((rangeInMem_iff s.i count).2 hin)] at h
    cases h
  omega

end Machine

open Machine

/-- Settles O47: the condition is `instrFault`, read off instruction by instruction. -/
theorem eachInstructionRaisesAtMostItsCondition : Obligations.EachInstructionRaisesAtMostItsCondition := by
  intro i s t f hrunning hexec hhalt
  have hfault : instrFault s i = some f := by rw [← hhalt, exec_halt hexec, hrunning, Option.or_none]
  refine ⟨(Host.Outcome.next.inj ((exec_of_fault hfault).symm.trans hexec)).symm, ?_⟩
  cases i with
  | call nnn =>
    obtain ⟨hfull, hf⟩ := Option.ite_none_right_eq_some.1 hfault
    exact .inl ⟨⟨nnn, rfl⟩, (Option.some.inj hf).symm, hfull⟩
  | ret =>
    obtain ⟨hempty, hf⟩ := Option.ite_none_right_eq_some.1 hfault
    exact .inr (.inl ⟨rfl, (Option.some.inj hf).symm, hempty⟩)
  | skp x => exact .inr (.inr (.inl ⟨x, .inl rfl, keyFault_eq_some hfault, keyFault_some_gt hfault⟩))
  | sknp x => exact .inr (.inr (.inl ⟨x, .inr rfl, keyFault_eq_some hfault, keyFault_some_gt hfault⟩))
  | stRegs count =>
    exact .inr (.inr (.inr ⟨count, .inl rfl, rangeFault_eq_some hfault, rangeFault_some_bounds hfault⟩))
  | ldRegs count =>
    exact .inr (.inr (.inr ⟨count, .inr (.inl rfl), rangeFault_eq_some hfault, rangeFault_some_bounds hfault⟩))
  | drw x y height =>
    exact .inr (.inr (.inr ⟨height, .inr (.inr (.inl ⟨x, y, rfl⟩)), rangeFault_eq_some hfault,
      rangeFault_some_bounds hfault⟩))
  | ldB x =>
    exact .inr (.inr (.inr ⟨3, .inr (.inr (.inr ⟨rfl, x, rfl⟩)), rangeFault_eq_some hfault,
      rangeFault_some_bounds hfault⟩))
  | _ => cases hfault

/-- Settles O45: a halted machine's cycle is the recorded fault, the other operations write no HALT, and Reset does. -/
theorem haltedMachineOnlyResets : Obligations.HaltedMachineOnlyResets := by
  intro s f tick hhalt
  have hcycle : cycleWith tick s = .fault f := by rw [cycleWith, hhalt]
  have hstep : hostStep tick .cycle s = (s, .failed f) := by rw [hostStep_cycle, hcycle]; rfl
  refine ⟨hcycle, hstep, fun op hop => ?_, rfl⟩
  cases op with
  | reset => exact absurd rfl hop
  | cycle => rw [hstep]; exact hhalt
  | loadProgram bytes =>
    change (reportOf s (loadProgram bytes s)).1.halt = some f
    rw [loadProgram]
    split <;> exact hhalt
  | setKey k b =>
    change (reportOf s (setKey k b s)).1.halt = some f
    rw [setKey]
    split <;> exact hhalt
  | timerTick => cases tick <;> exact hhalt

end Sys2Proof

namespace Sys2Proof

/-! ## Support for the timers: a completed cycle, and the waiting cycle -/

namespace Machine

/-- A step that ends without a fault runs an instruction and then ticks (R97, R189). -/
theorem step_completed {s t : State} (h : step s = .next t) (hhalt : t.halt = none) :
    ∃ i, s.runs i ∧ t = (s.afterInstr i).timerTick := by
  rcases cycleWith_next_cases h with ⟨f, rfl⟩ | ⟨i, hruns, -, ht⟩
  · cases hhalt
  · exact ⟨i, hruns, ht⟩

/-- The next cycle runs one instruction at most. -/
theorem State.runs_unique {s : State} {i j : Instr} (hi : s.runs i) (hj : s.runs j) : i = j :=
  Option.some.inj (hi.2.2.symm.trans hj.2.2)

theorem step_dt_toNat {s t : State} (h : step s = .next t) (hhalt : t.halt = none)
    (hwrite : ∀ x, ¬ s.runs (.ldDtVx x)) : t.dt.toNat = s.dt.toNat - 1 := by
  obtain ⟨i, hruns, rfl⟩ := step_completed h hhalt
  have hdt : (effect s i).dt = s.dt := (effect_dt s i).resolve_right fun ⟨x, hi⟩ => hwrite x (hi ▸ hruns)
  rw [State.timerTick_dt, tickDown_toNat, State.afterInstr, hdt]

theorem step_st_toNat {s t : State} (h : step s = .next t) (hhalt : t.halt = none)
    (hwrite : ∀ x, ¬ s.runs (.ldStVx x)) : t.st.toNat = s.st.toNat - 1 := by
  obtain ⟨i, hruns, rfl⟩ := step_completed h hhalt
  have hst : (effect s i).st = s.st := (effect_st s i).resolve_right fun ⟨x, hi⟩ => hwrite x (hi ▸ hruns)
  rw [State.timerTick_st, tickDown_toNat, State.afterInstr, hst]

/-- A number that goes down by one, never below 0, at each of `n` steps. -/
theorem countdown {a : Nat → Nat} {n : Nat} (h : ∀ k, k < n → a (k + 1) = a k - 1) : a n = a 0 - n := by
  induction n with
  | zero => rfl
  | succ n ih =>
    rw [h n (Nat.lt_succ_self n), ih fun k hk => h k (Nat.lt_succ_of_lt hk), Nat.sub_sub]

/-- A step at a key wait with no key pressed is the tick alone (R198). -/
theorem step_waiting {s : State} {x : Reg} (hruns : s.runs (.ldVxK x)) (hkeys : ∀ k : Fin 16, s.keys[k] = false) :
    step s = .next s.timerTick := by
  have hexec : exec (.ldVxK x) s = .next s :=
    (exec_ldVxK_of_none x (lowestKey_none.2 hkeys)).trans s.complete_stall
  exact cycleWith_true_ticks hruns hexec hruns.1

theorem run_succ_of_step {M : Host.Core} {s t : M.State} (n : Nat) (h : M.step s = .next t) :
    M.run (n + 1) s = M.run n t := by
  rw [Host.Core.run, h]

/-- Counting down a byte by `n` after its tick. -/
theorem tickDown_sub (b : Byte) (n : Nat) :
    BitVec.ofNat 8 ((tickDown b).toNat - n) = BitVec.ofNat 8 (b.toNat - (n + 1)) := by
  rw [tickDown_toNat, Nat.sub_sub, Nat.add_comm]

end Machine

open Machine

/-- Settles O37: the step ends on the tick of what the instruction left in the timers. -/
theorem everyCompletedCycleTicks : Obligations.EveryCompletedCycleTicks := by
  intro s t i hruns hstep hhalt
  obtain ⟨j, hj, rfl⟩ := step_completed hstep hhalt
  obtain rfl := State.runs_unique hruns hj
  rw [State.timerTick_dt, State.timerTick_st, tickDown_toNat, tickDown_toNat]
  cases i <;> exact ⟨rfl, rfl⟩

/-- Settles O38: each of the steps takes one off, down to 0. -/
theorem timerCountsCyclesDown : Obligations.TimerCountsCyclesDown := by
  intro n σ hsteps
  refine ⟨fun hwrite => ?delay, fun hwrite => ?sound⟩
  case delay =>
    exact countdown (a := fun k => (σ k).dt.toNat) fun k hk =>
      step_dt_toNat (hsteps k hk).1 (hsteps k hk).2 fun x => hwrite k x hk
  case sound =>
    exact countdown (a := fun k => (σ k).st.toNat) fun k hk =>
      step_st_toNat (hsteps k hk).1 (hsteps k hk).2 fun x => hwrite k x hk

/-- Settles O42, by induction on the number of steps: each is the tick alone, and the next waits at the same word. -/
theorem waitingChangesOnlyTheTimers : Obligations.WaitingChangesOnlyTheTimers := by
  intro n
  induction n with
  | zero =>
    intro x s _ _
    simp [Host.Core.run]
  | succ n ih =>
    intro x s hruns hkeys
    have hruns' : s.timerTick.runs (.ldVxK x) := hruns
    have hrest := ih x s.timerTick hruns' hkeys
    rw [State.timerTick_dt, State.timerTick_st, tickDown_sub, tickDown_sub] at hrest
    exact (run_succ_of_step (M := core) n (step_waiting hruns hkeys)).trans hrest

end Sys2Proof

namespace Sys2Proof

/-! ## Support for the sound timer: an instruction with another ST (10_state.md section 4) -/

namespace Machine

theorem instrFault_withSt (s : State) (b : Byte) (i : Instr) : instrFault { s with st := b } i = instrFault s i := by
  cases i <;> rfl

theorem pcOutcome_withSt (s : State) (b : Byte) (i : Instr) : pcOutcome { s with st := b } i = pcOutcome s i := by
  cases i <;> rfl

/-- The effect of an instruction with another ST differs in ST alone. -/
theorem effect_withSt (s : State) (b : Byte) (i : Instr) :
    { effect { s with st := b } i with st := (effect s i).st } = effect s i := by
  cases i <;> rfl

theorem afterInstr_withSt (s : State) (b : Byte) (i : Instr) :
    { ({ s with st := b } : State).afterInstr i with st := (s.afterInstr i).st } = s.afterInstr i := by
  have h := effect_withSt s b i
  rw [State.afterInstr, State.afterInstr, pcOutcome_withSt, ← h]

theorem timerTick_withSt {s t : State} (h : { t with st := s.st } = s) :
    { t.timerTick with st := s.timerTick.st } = s.timerTick := by
  rw [← h]
  rfl

end Machine

open Machine

/-- Settles O39: with another ST the same cycle faults or runs the same instruction, whose effect differs in ST
alone. -/
theorem soundTimerIsNotObservable : Obligations.SoundTimerIsNotObservable := by
  intro s t b hstep
  have hrunning := (cycleWith_next hstep).1
  have hsame : ∀ {u}, step s = .next u → u = t := fun hu => Host.Outcome.next.inj (hu.symm.trans hstep)
  rcases s.running_cases hrunning with hpc | ⟨hpc, hword⟩ | ⟨i, hruns⟩
  · obtain rfl := hsame (cycleWith_of_fetchFault true hrunning hpc)
    exact ⟨_, cycleWith_of_fetchFault (s := { s with st := b }) true hrunning hpc, rfl⟩
  · obtain rfl := hsame (cycleWith_of_unrecognized true hrunning hpc hword)
    exact ⟨_, cycleWith_of_unrecognized (s := { s with st := b }) true hrunning hpc hword, rfl⟩
  · have hruns' : ({ s with st := b } : State).runs i := hruns
    have hfault' := instrFault_withSt s b i
    cases hfault : instrFault s i with
    | some f =>
      obtain rfl := hsame (cycleWith_of_fault true hruns hfault)
      exact ⟨_, cycleWith_of_fault true hruns' (hfault'.trans hfault), rfl⟩
    | none =>
      obtain rfl := hsame (cycleWith_of_noFault true hruns hfault)
      exact ⟨_, cycleWith_of_noFault true hruns' (hfault'.trans hfault), timerTick_withSt (afterInstr_withSt s b i)⟩

end Sys2Proof

namespace Sys2Proof

/-! ## Support for the invariant: every effect and every counter update keeps it (R35) -/

namespace Machine

/-- The invariant speaks of memory, FONT, pc, SP and STACK alone. -/
theorem State.Inv.of_same {s t : State} (h : s.Inv) (hmem : t.mem = s.mem) (hfont : t.font = s.font) (hpc : t.pc = s.pc)
    (hsp : t.sp = s.sp) (hstack : t.stack = s.stack) : t.Inv where
  mem_wf := by rw [hmem, hfont]; exact h.mem_wf
  pc_le := by rw [hpc]; exact h.pc_le
  stack_le := by rw [hstack]; exact h.stack_le
  used_return := by rw [hsp, hstack]; exact h.used_return

theorem State.Inv.writeBytes {s : State} (h : s.Inv) (a : Nat) (bs : List Byte) : (s.writeBytes a bs).Inv :=
  ⟨State.writeBytes_wf h.mem_wf a bs, h.pc_le, h.stack_le, h.used_return⟩

/-- An entry after a push: the return address at the old depth, every other entry as before (R132). -/
theorem State.pushed_stack_getElem (s : State) (j : Fin 16) :
    s.pushed.stack[j] = if j.val = s.sp.val then advance s.pc.toNat else s.stack[j] := by
  refine (Vector.getElem_setIfInBounds j.isLt).trans ?_
  simp only [eq_comm]
  rfl

theorem State.Inv.pushed {s : State} (h : s.Inv) : s.pushed.Inv := by
  have hret : isReturnAddress (advance s.pc.toNat) := advance_bounds s.pc.toNat
  refine ⟨h.mem_wf, h.pc_le, fun j => ?le, fun j hj => ?used⟩
  case le =>
    rw [State.pushed_stack_getElem]
    split
    · exact hret.2
    · exact h.stack_le j
  case used =>
    have hj' : j.val < s.sp.val + 1 := Nat.lt_of_lt_of_le hj (Nat.min_le_left _ _)
    rw [State.pushed_stack_getElem]
    split
    · exact hret
    · exact h.used_return j (by omega)

theorem State.Inv.popped {s : State} (h : s.Inv) : s.popped.Inv :=
  ⟨h.mem_wf, h.pc_le, h.stack_le, fun j hj => h.used_return j (Nat.lt_of_lt_of_le hj (Nat.sub_le _ _))⟩

theorem effect_inv {s : State} (h : s.Inv) (i : Instr) : (effect s i).Inv := by
  cases i with
  | call nnn => exact h.pushed
  | ret => exact h.popped
  | ldB x => exact h.writeBytes _ _
  | stRegs count => exact h.writeBytes _ _
  | _ => exact h.of_same rfl rfl rfl rfl rfl

/-! ### The bound of pc -/

theorem skipWhen_ne_jump (b : Bool) (w : Word) : skipWhen b ≠ .jump w := by
  cases b <;> simp [skipWhen]

theorem keyWait_ne_jump (s : State) (w : Word) : s.keyWait ≠ .jump w := by
  rw [State.keyWait]
  split <;> simp

theorem jpV0_target_toNat (nnn : BitVec 12) (b : Byte) : (addrOf nnn + zext16 b).toNat = nnn.toNat + b.toNat := by
  have := nnn.isLt
  have := b.isLt
  rw [BitVec.toNat_add, addrOf_toNat, zext16_toNat]
  omega

/-- The greatest target is that of `Bnnn` (decision D1). -/
theorem jump_target_le {s : State} (h : s.Inv) {i : Instr} {w : Word} (hjump : pcOutcome s i = .jump w) :
    w.toNat ≤ 0x10FE := by
  cases i with
  | ret =>
    obtain rfl := PcOutcome.jump.inj hjump
    exact (h.stack_le ⟨s.sp.val - 1, by omega⟩).trans (by decide)
  | jp nnn | call nnn =>
    obtain rfl := PcOutcome.jump.inj hjump
    have := nnn.isLt
    rw [addrOf_toNat]
    omega
  | jpV0 nnn =>
    obtain rfl := PcOutcome.jump.inj hjump
    have := nnn.isLt
    have := (s.getV 0).isLt
    rw [jpV0_target_toNat]
    omega
  | seImm | sneImm | seReg | sneReg | skp | sknp => exact absurd hjump (skipWhen_ne_jump _ w)
  | ldVxK x => exact absurd hjump (keyWait_ne_jump s w)
  | _ => cases hjump

theorem newPc_le {pc : Word} {o : PcOutcome} (hpc : pc.toNat ≤ 0x10FE) (hjump : ∀ w, o = .jump w → w.toNat ≤ 0x10FE) :
    (newPc pc o).toNat ≤ 0x10FE := by
  cases o with
  | next => exact (advance_bounds _).2.trans (by decide)
  | skip => exact (advance_bounds _).2.trans (by decide)
  | jump w => exact hjump w rfl
  | stall => exact hpc

theorem afterInstr_inv {s : State} (h : s.Inv) (i : Instr) : (s.afterInstr i).Inv :=
  have heffect := effect_inv h i
  ⟨heffect.mem_wf, newPc_le h.pc_le fun _ => jump_target_le h, heffect.stack_le, heffect.used_return⟩

/-! ### Cycles and host operations -/

theorem State.Inv.timerTick {s : State} (h : s.Inv) : s.timerTick.Inv := h.of_same rfl rfl rfl rfl rfl

theorem cycleWith_inv {tick : Bool} {s t : State} (hinv : s.Inv) (h : cycleWith tick s = .next t) : t.Inv := by
  rcases cycleWith_next_cases h with ⟨f, rfl⟩ | ⟨i, -, -, rfl⟩
  · exact hinv.of_same rfl rfl rfl rfl rfl
  · split
    · exact (afterInstr_inv hinv i).timerTick
    · exact afterInstr_inv hinv i

theorem resetWith_inv (f : Font) : (State.resetWith f).Inv where
  mem_wf := ⟨.nil, fun _ hp => nomatch hp⟩
  pc_le := (by decide : (0x0200#16).toNat ≤ 0x10FE)
  stack_le j := by simp [State.resetWith]
  used_return j hj := absurd hj (Nat.not_lt_zero _)

theorem hostStep_setKey (tick : Bool) (k : Nat) (b : Bool) (s : State) :
    hostStep tick (.setKey k b) s = reportOf s (setKey k b s) := rfl

/-- What a host operation leaves: the state as it was, what Reset, LoadProgram, SetKey or the tick make of it, or the
next state of a cycle (R228). -/
theorem hostStep_cases (tick : Bool) (op : HostOp) (s : State) :
    (hostStep tick op s).1 = s ∨ (hostStep tick op s).1 = s.resetOp ∨
    (∃ bytes, (hostStep tick op s).1 = s.writeBytes 0x200 bytes) ∨
    (∃ keys, (hostStep tick op s).1 = { s with keys := keys }) ∨ (hostStep tick op s).1 = s.timerTick ∨
    cycleWith tick s = .next (hostStep tick op s).1 := by
  cases op with
  | reset => exact .inr (.inl rfl)
  | loadProgram bytes =>
    rw [hostStep_loadProgram, loadProgram]
    split
    · exact .inr (.inr (.inl ⟨bytes, rfl⟩))
    · exact .inl rfl
  | cycle => exact (hostStep_cycle_state tick s).imp_right fun h => .inr (.inr (.inr (.inr h)))
  | setKey k b =>
    rw [hostStep_setKey, setKey]
    split
    · exact .inr (.inr (.inr (.inl ⟨_, rfl⟩)))
    · exact .inl rfl
  | timerTick =>
    cases tick
    · exact .inr (.inr (.inr (.inr (.inl rfl))))
    · exact .inl rfl

theorem hostStep_inv {s : State} (h : s.Inv) (tick : Bool) (op : HostOp) : (hostStep tick op s).1.Inv := by
  rcases hostStep_cases tick op s with heq | heq | ⟨bytes, heq⟩ | ⟨keys, heq⟩ | heq | hcycle
  · rw [heq]; exact h
  · rw [heq]; exact (resetWith_inv s.font).of_same rfl rfl rfl rfl rfl
  · rw [heq]; exact h.writeBytes _ _
  · rw [heq]; exact h.of_same rfl rfl rfl rfl rfl
  · rw [heq]; exact h.timerTick
  · exact cycleWith_inv h hcycle

/-! ### FONT -/

theorem cycleWith_font {tick : Bool} {s t : State} (h : cycleWith tick s = .next t) : t.font = s.font := by
  rcases cycleWith_next_cases h with ⟨f, rfl⟩ | ⟨i, -, -, rfl⟩
  · rfl
  · split <;> exact effect_font s i

theorem hostStep_font (tick : Bool) (op : HostOp) (s : State) : (hostStep tick op s).1.font = s.font := by
  rcases hostStep_cases tick op s with heq | heq | ⟨bytes, heq⟩ | ⟨keys, heq⟩ | heq | hcycle
  · rw [heq]
  · rw [heq]; rfl
  · rw [heq]; rfl
  · rw [heq]
  · rw [heq]; rfl
  · exact cycleWith_font hcycle

/-- After reset every byte of memory is its reset content (R36). -/
theorem resetWith_read (f : Font) (a : Nat) : (State.resetWith f).read a = Memory.background f a := rfl

theorem resetWith_read_font (f : Font) {a : Nat} (h : a < 80) : (State.resetWith f).read a = fontByte f a h :=
  (resetWith_read f a).trans (Memory.background_of_lt h)

theorem resetWith_read_zero (f : Font) {a : Nat} (h : 80 ≤ a) : (State.resetWith f).read a = 0#8 :=
  (resetWith_read f a).trans (Memory.background_of_ge h)

end Machine

open Machine

/-- Settles O52: a cycle raises, which touches HALT alone, or completes an instruction and ticks at most. -/
theorem everyStepKeepsTheInvariant : Obligations.EveryStepKeepsTheInvariant := by
  rintro s t hinv (hstep | hcycle)
  · exact cycleWith_inv hinv hstep
  · exact cycleWith_inv hinv hcycle

/-- Settles O53: nothing is listed in memory and no entry is in use. -/
theorem resetStateHasTheInvariant : Obligations.ResetStateHasTheInvariant := ⟨resetWith_inv defaultFont, resetWith_inv⟩

/-- Settles O54: each operation keeps the invariant, so the list does. -/
theorem everyHostOperationKeepsTheInvariant : Obligations.EveryHostOperationKeepsTheInvariant :=
  fun tick ops _ hinv => List.foldlRecOn ops _ hinv fun _ hu op _ => hostStep_inv hu tick op

/-- Settles O59: no effect writes FONT, and after reset memory is its reset content. -/
theorem fontIsAParameterThatNothingWrites : Obligations.FontIsAParameterThatNothingWrites := by
  refine ⟨fun _ _ _ => exec_font, fun _ _ _ => cycleWith_font, fun tick ops s => ?history,
    fun f a => ⟨resetWith_read_font f, resetWith_read_zero f⟩⟩
  case history =>
    exact List.foldlRecOn (motive := fun u : State => u.font = s.font) ops _ rfl
      fun u hu op _ => (hostStep_font tick op u).trans hu

end Sys2Proof

namespace Sys2Proof

/-! ## Support for the host interface: the bytes of a load, and the key that is set (R195, R243) -/

namespace Machine

/-- A byte of a run, read where it was written (R55). -/
theorem State.read_writeBytes_inside (s : State) {a k : Nat} {bs : List Byte} (hk : k < bs.length)
    (hmem : a + k ≤ 0xFFF) : (s.writeBytes a bs).read (a + k) = bs[k] := by
  rw [State.read_writeBytes, dif_pos (by omega)]
  simp

theorem setKey_of_gt {k : Nat} (b : Bool) (s : State) (h : 15 < k) : setKey k b s = .refused (.keyOutsideInterface k) :=
  dif_neg (by omega)

theorem setKey_of_key (k : Fin 16) (b : Bool) (s : State) :
    setKey k.val b s = .next { s with keys := s.keys.set k.val b } := dif_pos k.isLt

theorem keys_set_getElem (keys : Vector Bool 16) (k j : Fin 16) (b : Bool) :
    (keys.set k.val b)[j] = if j = k then b else keys[j] := by
  refine (Vector.getElem_set k.isLt j.isLt).trans ?_
  simp only [← Fin.ext_iff, eq_comm]
  rfl

end Machine

open Machine

/-- Settles O55: Reset is the reset state at the machine's FONT, with the count of draws kept. -/
theorem resetSetsEveryElement : Obligations.ResetSetsEveryElement := fun s _ =>
  ⟨s.resetOp, rfl, fun _ h => resetWith_read_font s.font h, fun _ h => resetWith_read_zero s.font h,
    fun r => Vector.getElem_replicate r.isLt, rfl, rfl, rfl, fun j => Vector.getElem_replicate j.isLt, rfl, rfl,
    fun k => Vector.getElem_replicate k.isLt, fun r c => cell_darkFb r c, rfl, rfl, rfl, rfl⟩

/-- Settles O56: 3584 bytes from 0x200 up end at 0xFFF, so every byte of the load is written. -/
theorem loadProgramCopiesTheBytes : Obligations.LoadProgramCopiesTheBytes := by
  intro bytes s tick hlen
  refine ⟨s.writeBytes 0x200 bytes, ?report, fun k hk => s.read_writeBytes_inside hk (by omega),
    fun a ha => s.read_writeBytes_outside ha, rfl⟩
  case report => rw [hostStep_loadProgram, loadProgram_of_le s hlen, reportOf]

/-- Settles O58: the four answers of SetKey and TimerTick. -/
theorem setKeyAndHostTickChangeTheirOwn : Obligations.SetKeyAndHostTickChangeTheirOwn := by
  refine fun s tick => ⟨fun k b => ?key, fun k b hk => ?outside, rfl, rfl⟩
  case key =>
    refine ⟨{ s with keys := s.keys.set k.val b }, ?_, fun j => keys_set_getElem s.keys k j b, rfl⟩
    rw [hostStep_setKey, setKey_of_key, reportOf]
  case outside => rw [hostStep_setKey, setKey_of_gt b s hk, reportOf]

end Sys2Proof

namespace Sys2Proof

/-! ## Support for the flag-writing instructions: the two orders of writes, and the flags as arithmetic (R110) -/

namespace Machine

/-- A state with other registers and pc at the normal advance changes at most V[x] and the flag. -/
theorem changesOnly_of_getV {s t : State} {x : Reg} (hregs : ∀ r, r ≠ x → r ≠ 0xF → t.getV r = s.getV r)
    (ht : t = { s with v := t.v, pc := newPc s.pc .next }) : changesOnly s t x := by
  have hpc : t.pc = newPc s.pc .next := by rw [ht]
  exact ⟨hregs, hpc ▸ ht, advances_newPc_next hpc⟩

/-- Result first, flag second: the flag remains, and the result where V[x] is another register. -/
theorem resultThenFlag_completes (s : State) (x : Reg) (b : Byte) (flag : Bool) :
    ∃ t, (s.resultThenFlag x b flag).complete .next = .next t ∧ t.getV 0xF = flagByte flag ∧
      (x ≠ 0xF → t.getV x = b) ∧ changesOnly s t x := by
  have hget := fun r => s.getV_resultThenFlag x r b flag
  refine ⟨_, State.complete_eq _ _, (hget 0xF).trans (if_pos rfl), fun hx => ?_,
    changesOnly_of_getV (fun r hr hf => ?_) rfl⟩
  · exact (hget x).trans ((if_neg hx).trans (if_pos rfl))
  · exact (hget r).trans ((if_neg hf).trans (if_neg hr))

/-- Flag first, result second: the result remains, and the flag where V[x] is another register. -/
theorem flagThenResult_completes (s : State) (x : Reg) (b : Byte) (flag : Bool) :
    ∃ t, (s.flagThenResult x b flag).complete .next = .next t ∧ t.getV x = b ∧
      (x ≠ 0xF → t.getV 0xF = flagByte flag) ∧ changesOnly s t x := by
  have hget := fun r => s.getV_flagThenResult x r b flag
  refine ⟨_, State.complete_eq _ _, (hget x).trans (if_pos rfl), fun hx => ?_,
    changesOnly_of_getV (fun r hr hf => ?_) rfl⟩
  · exact (hget 0xF).trans ((if_neg hx.symm).trans (if_pos rfl))
  · exact (hget r).trans ((if_neg hr).trans (if_neg hf))

theorem exec_addReg (x y : Reg) (s : State) : exec (.addReg x y) s
    = (s.resultThenFlag x (s.getV x + s.getV y) (carry (s.getV x) (s.getV y))).complete .next := rfl

theorem exec_sub (x y : Reg) (s : State) : exec (.sub x y) s
    = (s.resultThenFlag x (s.getV x - s.getV y) (noBorrow (s.getV x) (s.getV y))).complete .next := rfl

theorem exec_subn (x y : Reg) (s : State) : exec (.subn x y) s
    = (s.resultThenFlag x (s.getV y - s.getV x) (noBorrow (s.getV y) (s.getV x))).complete .next := rfl

theorem exec_shr (x y : Reg) (s : State) : exec (.shr x y) s
    = (s.flagThenResult x (s.getV x >>> 1) (lowBit (s.getV x))).complete .next := rfl

theorem exec_shl (x y : Reg) (s : State) : exec (.shl x y) s
    = (s.flagThenResult x (s.getV x <<< 1) (highBit (s.getV x))).complete .next := rfl

theorem flagByte_decide (p : Prop) [Decidable p] : flagByte p = if p then 1#8 else 0#8 := by
  simp only [flagByte, decide_eq_true_eq]

theorem flagByte_toNat (b : Bool) : (flagByte b).toNat = b.toNat := by
  cases b <;> rfl

/-- The difference of two bytes, by arithmetic modulo 256. -/
theorem byte_sub_eq_ofNat (a b : Byte) : a - b = BitVec.ofNat 8 ((256 + a.toNat - b.toNat) % 256) := by
  have := b.isLt
  apply BitVec.eq_of_toNat_eq
  rw [BitVec.toNat_sub, BitVec.toNat_ofNat, Nat.mod_mod]
  omega

theorem byte_shr_toNat (a : Byte) : (a >>> 1).toNat = a.toNat / 2 := by
  rw [BitVec.toNat_ushiftRight, Nat.shiftRight_eq_div_pow]

theorem byte_shl_toNat (a : Byte) : (a <<< 1).toNat = a.toNat * 2 % 256 := by
  rw [BitVec.toNat_shiftLeft, Nat.shiftLeft_eq]

theorem lowBit_toNat (a : Byte) : (lowBit a).toNat = a.toNat % 2 := by
  rw [lowBit, BitVec.getLsbD, Nat.toNat_testBit, pow_zero, Nat.div_one]

theorem highBit_toNat (a : Byte) : (highBit a).toNat = a.toNat / 128 := by
  have := a.isLt
  rw [highBit, BitVec.getLsbD, Nat.toNat_testBit]
  omega

end Machine

open Machine

/-- Settles O9: in class 0x8 the selector 4 is the sum, with the carry written second. -/
theorem addRegistersSetsSumAndCarry : Obligations.AddRegistersSetsSumAndCarry := by
  refine ⟨encodes_class8 (n := 0x4#4) fun d hd => by simp [selectClass8, hd], fun x y s => ?_⟩
  rw [exec_addReg, byte_add_eq_ofNat]
  obtain ⟨t, hnext, hflag, hrest⟩ := resultThenFlag_completes s x _ (carry (s.getV x) (s.getV y))
  exact ⟨t, hnext, hflag.trans (flagByte_decide _), hrest⟩

/-- Settles O10: in class 0x8 the selector 5 is the difference, with the inverted borrow written second. -/
theorem subtractSetsDifferenceAndNoBorrow : Obligations.SubtractSetsDifferenceAndNoBorrow := by
  refine ⟨encodes_class8 (n := 0x5#4) fun d hd => by simp [selectClass8, hd], fun x y s => ?_⟩
  rw [exec_sub, byte_sub_eq_ofNat]
  obtain ⟨t, hnext, hflag, hrest⟩ := resultThenFlag_completes s x _ (noBorrow (s.getV x) (s.getV y))
  exact ⟨t, hnext, hflag.trans (flagByte_decide _), hrest⟩

/-- Settles O11: in class 0x8 the selector 7 is the reverse difference, with the inverted borrow written second. -/
theorem reverseSubtractSetsDifferenceAndNoBorrow : Obligations.ReverseSubtractSetsDifferenceAndNoBorrow := by
  refine ⟨encodes_class8 (n := 0x7#4) fun d hd => by simp [selectClass8, hd], fun x y s => ?_⟩
  rw [exec_subn, byte_sub_eq_ofNat]
  obtain ⟨t, hnext, hflag, hrest⟩ := resultThenFlag_completes s x _ (noBorrow (s.getV y) (s.getV x))
  exact ⟨t, hnext, hflag.trans (flagByte_decide _), hrest⟩

/-- Settles O12: in class 0x8 the selectors 6 and 0xE are the shifts, with the result written second. -/
theorem shiftsMoveOneBitToTheFlag : Obligations.ShiftsMoveOneBitToTheFlag := by
  refine ⟨encodes_class8 (n := 0x6#4) fun d hd => by simp [selectClass8, hd],
    encodes_class8 (n := 0xE#4) fun d hd => by simp [selectClass8, hd], fun x y s => ⟨?right, ?left⟩⟩
  case right =>
    rw [exec_shr]
    obtain ⟨t, hnext, hresult, hflag, hchanges⟩ := flagThenResult_completes s x (s.getV x >>> 1) (lowBit (s.getV x))
    refine ⟨t, hnext, ?_, fun hx => ?_, hchanges⟩
    · rw [hresult, byte_shr_toNat]
    · rw [hflag hx, flagByte_toNat, lowBit_toNat]
  case left =>
    rw [exec_shl]
    obtain ⟨t, hnext, hresult, hflag, hchanges⟩ := flagThenResult_completes s x (s.getV x <<< 1) (highBit (s.getV x))
    refine ⟨t, hnext, ?_, fun hx => ?_, hchanges⟩
    · rw [hresult, byte_shl_toNat]
    · rw [hflag hx, flagByte_toNat, highBit_toNat]

namespace Machine

theorem flagValue_toNat (p : Prop) [Decidable p] : (if p then 1#8 else 0#8).toNat = if p then 1 else 0 := by
  split <;> rfl

theorem byteOfMod_toNat (n : Nat) : (BitVec.ofNat 8 (n % 256)).toNat = n % 256 := by
  rw [BitVec.toNat_ofNat, Nat.mod_mod]

/-- What 8xy4 leaves in V[0xF], and in V[x] when that is another register (R117). -/
theorem addReg_values {x y : Reg} {s t : State} (h : exec (.addReg x y) s = .next t) :
    (t.getV 0xF).toNat = (if (s.getV x).toNat + (s.getV y).toNat > 255 then 1 else 0) ∧
    (x ≠ 0xF → (t.getV x).toNat = ((s.getV x).toNat + (s.getV y).toNat) % 256) := by
  obtain ⟨u, hu, hflag, hresult, -⟩ := addRegistersSetsSumAndCarry.2 x y s
  obtain rfl := Host.Outcome.next.inj (hu.symm.trans h)
  exact ⟨by rw [hflag, flagValue_toNat], fun hx => by rw [hresult hx, byteOfMod_toNat]⟩

/-- What 8xy5 leaves there (R118). -/
theorem sub_values {x y : Reg} {s t : State} (h : exec (.sub x y) s = .next t) :
    (t.getV 0xF).toNat = (if (s.getV x).toNat ≥ (s.getV y).toNat then 1 else 0) ∧
    (x ≠ 0xF → (t.getV x).toNat = (256 + (s.getV x).toNat - (s.getV y).toNat) % 256) := by
  obtain ⟨u, hu, hflag, hresult, -⟩ := subtractSetsDifferenceAndNoBorrow.2 x y s
  obtain rfl := Host.Outcome.next.inj (hu.symm.trans h)
  exact ⟨by rw [hflag, flagValue_toNat], fun hx => by rw [hresult hx, byteOfMod_toNat]⟩

/-- What 8xy7 leaves there (R120). -/
theorem subn_values {x y : Reg} {s t : State} (h : exec (.subn x y) s = .next t) :
    (t.getV 0xF).toNat = (if (s.getV y).toNat ≥ (s.getV x).toNat then 1 else 0) ∧
    (x ≠ 0xF → (t.getV x).toNat = (256 + (s.getV y).toNat - (s.getV x).toNat) % 256) := by
  obtain ⟨u, hu, hflag, hresult, -⟩ := reverseSubtractSetsDifferenceAndNoBorrow.2 x y s
  obtain rfl := Host.Outcome.next.inj (hu.symm.trans h)
  exact ⟨by rw [hflag, flagValue_toNat], fun hx => by rw [hresult hx, byteOfMod_toNat]⟩

theorem shr_value {x y : Reg} {s t : State} (h : exec (.shr x y) s = .next t) :
    (t.getV x).toNat = (s.getV x).toNat / 2 := by
  obtain ⟨u, hu, hresult, -⟩ := (shiftsMoveOneBitToTheFlag.2.2 x y s).1
  obtain rfl := Host.Outcome.next.inj (hu.symm.trans h)
  exact hresult

theorem shl_value {x y : Reg} {s t : State} (h : exec (.shl x y) s = .next t) :
    (t.getV x).toNat = (s.getV x).toNat * 2 % 256 := by
  obtain ⟨u, hu, hresult, -⟩ := (shiftsMoveOneBitToTheFlag.2.2 x y s).2
  obtain rfl := Host.Outcome.next.inj (hu.symm.trans h)
  exact hresult

end Machine

/-- Settles O13: the rows are instances of what the five instructions leave in V[x] and V[0xF]. -/
theorem flagRegisterAsOperand : Obligations.FlagRegisterAsOperand := by
  rintro s f rfl
  exact ⟨fun y t h => (addReg_values h).1, fun x t hx h => ⟨(addReg_values h).2 hx, (addReg_values h).1⟩,
    fun y t h => (sub_values h).1, fun x t hx h => ⟨(sub_values h).2 hx, (sub_values h).1⟩,
    fun y t h => shr_value h,
    fun y t h => (subn_values h).1, fun x t hx h => ⟨(subn_values h).2 hx, (subn_values h).1⟩,
    fun y t h => (shl_value h).trans (by rw [Nat.mul_comm])⟩

namespace Machine

theorem exec_rnd (x : Reg) (kk : Byte) (s : State) : exec (.rnd x kk) s
    = ({ s.setV x (Config.draw8 s.draws &&& kk) with draws := s.draws + 1 }).complete .next := rfl

/-- A masked byte has no bit outside the mask. -/
theorem and_and_not_self (b kk : Byte) : b &&& kk &&& ~~~ kk = 0#8 := by
  rw [BitVec.and_assoc, BitVec.and_not_self]
  exact BitVec.and_zero

end Machine

/-- Settles O14: one register write of the masked byte, and the count of draws one higher. -/
theorem randomByteIsMaskedAndFresh : Obligations.RandomByteIsMaskedAndFresh := by
  refine ⟨encodes_xkk (c := 0xC#4) fun d hd => by simp [select, hd], fun x kk s => ?_⟩
  rw [exec_rnd]
  have hget := fun r => s.getV_setV x r (Config.draw8 s.draws &&& kk)
  have hx : (s.setV x (Config.draw8 s.draws &&& kk)).getV x = Config.draw8 s.draws &&& kk := (hget x).trans (if_pos rfl)
  refine ⟨_, State.complete_eq _ _, hx, ?masked, fun r hr => (hget r).trans (if_neg hr), rfl⟩
  case masked => exact (congrArg (· &&& ~~~ kk) hx).trans (and_and_not_self _ kk)

/-- Settles O15: the advance by 2 from pc, or from pc + 2 for a skip. -/
theorem advanceAndSkipWrapToProgramStart : Obligations.AdvanceAndSkipWrapToProgramStart := by
  refine fun pc => ⟨fun h => ?next, fun h => ?nextWraps, fun h => ?skip, fun h => ?skipWraps, fun _ => rfl, rfl⟩
  case next => rw [newPc, advance_toNat, if_pos (by omega)]
  case nextWraps => rw [newPc, advance, if_neg (by omega)]
  case skip => rw [newPc, advance_toNat, if_pos (by omega)]
  case skipWraps => rw [newPc, advance, if_neg (by omega)]

end Sys2Proof

namespace Sys2Proof

/-! ## Support for the jumps and the call stack: what each transfer answers (R130 to R134) -/

namespace Machine

theorem exec_jp (nnn : BitVec 12) (s : State) : exec (.jp nnn) s = .next { s with pc := addrOf nnn } := rfl

theorem exec_jpV0 (nnn : BitVec 12) (s : State) :
    exec (.jpV0 nnn) s = .next { s with pc := addrOf nnn + zext16 (s.getV 0) } := rfl

theorem exec_call_pushes {s : State} (nnn : BitVec 12) (h : s.sp.val < 16) :
    exec (.call nnn) s = .next { s.pushed with pc := addrOf nnn } := exec_call_of_room nnn h

theorem exec_ret_pops {s : State} (h : 0 < s.sp.val) : exec .ret s = .next { s.popped with pc := s.lastEntry } :=
  exec_ret_of_used h

theorem pushed_sp {s : State} (h : s.sp.val < 16) : s.pushed.sp.val = s.sp.val + 1 :=
  Nat.min_eq_left (Nat.succ_le_of_lt h)

end Machine

open Machine

/-- Settles O17: a jump is one write of pc; at 0xFFF the next fetch has no second byte. -/
theorem jumpSetsPc : Obligations.JumpSetsPc := by
  refine ⟨encodes_nnn (c := 0x1#4) fun d hd => by simp [select, hd], fun nnn s => ?_⟩
  refine ⟨_, exec_jp nnn s, addrOf_toNat nnn, rfl, ?_⟩
  rintro hrunning rfl tick
  exact cycleWith_of_fetchFault (s := { s with pc := addrOf 0xFFF#12 }) tick hrunning (addrOf_toNat 0xFFF#12).ge

/-- Settles O18: below a full stack a call is a push and a jump; at a full one it raises. -/
theorem callPushesReturnAddress : Obligations.CallPushesReturnAddress := by
  refine ⟨encodes_nnn (c := 0x2#4) fun d hd => by simp [select, hd],
    fun nnn s => ⟨fun hroom => ?push, fun hfull => ?full⟩⟩
  case push => exact ⟨_, exec_call_pushes nnn hroom, addrOf_toNat nnn, pushed_sp hroom, s.pushed_stack_getElem, rfl⟩
  case full => exact exec_of_fault (i := .call nnn) (if_pos hfull)

/-- Settles O19: above an empty stack a return is a pop and a jump to the entry popped; at an empty one it raises. -/
theorem returnPopsIntoPc : Obligations.ReturnPopsIntoPc := by
  refine ⟨encodes_xlo (c := 0x0#4) (lo := 0xEE#8) (f := fun _ => .ret)
    fun d hcls hlo => by simp [select, selectClass0, hcls, hlo], fun s => ⟨fun hused => ?pop, fun hempty => ?empty⟩⟩
  case pop =>
    exact ⟨_, exec_ret_pops hused, Nat.sub_add_cancel hused, ⟨⟨s.sp.val - 1, by omega⟩, rfl, rfl⟩, rfl⟩
  case empty => exact exec_of_fault (i := .ret) (if_pos hempty)

/-- Settles O21: the return reads the entry that the call wrote. -/
theorem callThenReturnRoundTrip : Obligations.CallThenReturnRoundTrip := by
  intro nnn s t u hroom hcall hdepth hentry
  obtain rfl := Host.Outcome.next.inj ((exec_call_pushes nnn hroom).symm.trans hcall)
  have hlast : u.lastEntry = advance s.pc.toNat := by
    have hread := hentry ⟨s.sp.val, hroom⟩ rfl
    have hpushed := (s.pushed_stack_getElem ⟨s.sp.val, hroom⟩).trans (if_pos rfl)
    simp only [State.lastEntry, hdepth, Nat.add_sub_cancel]
    exact hread.trans hpushed
  refine ⟨_, exec_ret_pops (by omega), hlast, Fin.ext ?_⟩
  exact Nat.sub_eq_of_eq_add hdepth

/-- Settles O22: the target is the plain sum, and from 0xFFF on the next fetch faults. -/
theorem indexedJumpAddsV0 : Obligations.IndexedJumpAddsV0 := by
  refine ⟨encodes_nnn (c := 0xB#4) fun d hd => by simp [select, hd], fun nnn s => ?_⟩
  have htarget := jpV0_target_toNat nnn (s.getV 0)
  refine ⟨_, exec_jpV0 nnn s, htarget, rfl, fun hrunning hhigh tick => ?_⟩
  exact cycleWith_of_fetchFault (s := { s with pc := addrOf nnn + zext16 (s.getV 0) }) tick hrunning (htarget ▸ hhigh)

end Sys2Proof

namespace Sys2Proof

/-! ## Support for the classes 0xE and 0xF: the selection by the low byte (R77, R78), and the writes of I and the
timers -/

theorem select_classE {d : Descriptor} (hcls : d.cls = 0xE#4) : select d = selectClassE d := by
  simp [select, hcls]

theorem select_classF {d : Descriptor} (hcls : d.cls = 0xF#4) : select d = selectClassF d := by
  simp [select, hcls]

/-- In class 0xF, a low byte that selects `f` of x is encoded by the class and that byte. -/
theorem encodes_classF {lo : Byte} {f : Reg → Instr}
    (hsel : ∀ d : Descriptor, d.lo = lo → selectClassF d = some (f (regOf d.x))) :
    Encodes 0xF0FF#16 (packByte 0xF#4 0#4 lo) (fun w => f (wordX w)) :=
  encodes_xlo fun d hcls hlo => (select_classF hcls).trans (hsel d hlo)

namespace Machine

theorem exec_addI (x : Reg) (s : State) :
    exec (.addI x) s = .next { s with i := s.i + zext16 (s.getV x), pc := advance s.pc.toNat } := rfl

theorem exec_ldF (x : Reg) (s : State) :
    exec (.ldF x) s = .next { s with i := glyphAddr (s.getV x), pc := advance s.pc.toNat } := rfl

theorem indexSum_toNat (w : Word) (b : Byte) : (w + zext16 b).toNat = (w.toNat + b.toNat) % 65536 := by
  rw [BitVec.toNat_add, zext16_toNat]

/-- A byte times 5 needs no reduction. -/
theorem glyphAddr_toNat (b : Byte) : (glyphAddr b).toNat = b.toNat * 5 := by
  have := b.isLt
  rw [glyphAddr, BitVec.toNat_mul, zext16_toNat, BitVec.toNat_ofNat]
  omega

theorem skipIf_pcAfterSkip (s : State) {b : Bool} {cond : Prop} [Decidable cond] (hb : b = true ↔ cond) :
    s.skipIf b = .next { s with pc := pcAfterSkip s.pc cond } := by
  rw [State.skipIf, State.complete_eq, pcAfterSkip]
  by_cases hc : cond
  · rw [if_pos hc, if_pos (hb.2 hc), newPc]
  · rw [if_neg hc, if_neg (mt hb.1 hc), newPc]

end Machine

open Machine

/-- Settles O25: each is one write of I, by arithmetic. -/
theorem indexAddAndGlyphAddress : Obligations.IndexAddAndGlyphAddress :=
  ⟨encodes_classF (lo := 0x1E#8) fun d hlo => by simp [selectClassF, hlo],
    encodes_classF (lo := 0x29#8) fun d hlo => by simp [selectClassF, hlo],
    fun x s => ⟨⟨_, exec_addI x s, indexSum_toNat s.i (s.getV x), rfl⟩,
      ⟨_, exec_ldF x s, glyphAddr_toNat (s.getV x), rfl⟩⟩⟩

/-- Settles O36: the write is the instruction's effect, and the tick of the cycle comes after it. -/
theorem timerWritesPrecedeTheTick : Obligations.TimerWritesPrecedeTheTick :=
  ⟨encodes_classF (lo := 0x15#8) fun d hlo => by simp [selectClassF, hlo],
    encodes_classF (lo := 0x18#8) fun d hlo => by simp [selectClassF, hlo],
    fun _ _ => ⟨rfl, rfl,
      fun hruns => ⟨_, _, cycleWith_of_noFault true hruns rfl, cycleWith_of_noFault false hruns rfl,
        tickDown_toNat _, rfl⟩,
      fun hruns => ⟨_, _, cycleWith_of_noFault true hruns rfl, cycleWith_of_noFault false hruns rfl,
        tickDown_toNat _, rfl⟩⟩⟩

/-- Settles O40: below 16 the key's flag decides the skip, above 15 the check raises. -/
theorem keySkipsTestTheKey : Obligations.KeySkipsTestTheKey := by
  refine ⟨encodes_xlo (c := 0xE#4) (lo := 0x9E#8) fun d hcls hlo => by simp [select_classE hcls, selectClassE, hlo],
    encodes_xlo (c := 0xE#4) (lo := 0xA1#8) fun d hcls hlo => by simp [select_classE hcls, selectClassE, hlo],
    fun x s => ⟨fun k hk => ?key, fun hhigh => ?fault⟩⟩
  case key =>
    have hlt : (s.getV x).toNat < 16 := hk ▸ k.isLt
    have hflag : s.keys[(s.getV x).toNat] = s.keys[k] := by simp only [hk]; rfl
    rw [exec_skp, exec_sknp, State.withKey_of_lt hlt, State.withKey_of_lt hlt, hflag]
    exact ⟨skipIf_pcAfterSkip s Iff.rfl, skipIf_pcAfterSkip s (Bool.not_eq_true' _).to_iff⟩
  case fault =>
    have hfault : keyFault (s.getV x) = some (.keyIndexOutOfRange (s.getV x)) := if_neg (by omega)
    exact ⟨exec_of_fault (i := .skp x) hfault, exec_of_fault (i := .sknp x) hfault⟩

end Sys2Proof

namespace Sys2Proof

/-! ## Support for the memory transfers: the bounds check in words, and the bytes and registers moved (R150) -/

namespace Machine

theorem rangeFault_of_inMem {s : State} {count : Nat} (h : count = 0 ∨ s.i.toNat + count - 1 ≤ 0xFFF) :
    rangeFault s count = none := if_pos ((rangeInMem_iff s.i count).2 h)

theorem rangeFault_of_past {s : State} {count : Nat} (hcount : 0 < count) (h : 0xFFF < s.i.toNat + count - 1) :
    rangeFault s count = some (.memoryOutOfBounds s.i count) :=
  if_neg (mt (rangeInMem_iff s.i count).1 (by omega))

theorem exec_ldB_of_inMem {s : State} (x : Reg) (h : s.i.toNat ≤ 0xFFD) : exec (.ldB x) s
    = .next { s.writeBytes s.i.toNat (decimalDigits (s.getV x)) with pc := advance s.pc.toNat } :=
  exec_of_noFault (i := .ldB x) (rangeFault_of_inMem (by omega))

theorem exec_stRegs_of_inMem {s : State} {count : Nat} (h : count = 0 ∨ s.i.toNat + count - 1 ≤ 0xFFF) :
    exec (.stRegs count) s
      = .next { s.writeBytes s.i.toNat (s.v.toList.take count) with pc := advance s.pc.toNat } :=
  exec_of_noFault (i := .stRegs count) (rangeFault_of_inMem h)

theorem exec_ldRegs_of_inMem {s : State} {count : Nat} (h : count = 0 ∨ s.i.toNat + count - 1 ≤ 0xFFF) :
    exec (.ldRegs count) s
      = .next { s with v := loadRegs s.v 0 (s.readBytes s.i.toNat count), pc := advance s.pc.toNat } :=
  exec_of_noFault (i := .ldRegs count) (rangeFault_of_inMem h)

/-- A digit read where the digit store puts it. -/
theorem read_decimalDigits (s : State) (b : Byte) {a k : Nat} (hk : k < 3) (hmem : a + k ≤ 0xFFF) :
    ((s.writeBytes a (decimalDigits b)).read (a + k)).toNat = ((decimalDigits b)[k]'hk).toNat := by
  rw [s.read_writeBytes_inside (bs := decimalDigits b) hk hmem]

/-- The bytes that a register store leaves in memory (R155). -/
theorem read_storedRegs (s : State) {count a : Nat} {k : Reg} (hk : k.val < count) (hmem : a + k.val ≤ 0xFFF) :
    (s.writeBytes a (s.v.toList.take count)).read (a + k.val) = s.getV k := by
  have hlen : k.val < (s.v.toList.take count).length := by simp [hk]
  rw [s.read_writeBytes_inside hlen hmem, List.getElem_take]
  rfl

end Machine

open Machine

/-- Settles O26: the three bytes of the store are the digits; past 0xFFD the check raises. -/
theorem bcdStoresThreeDigits : Obligations.BcdStoresThreeDigits := by
  refine ⟨encodes_classF (lo := 0x33#8) fun d hlo => by simp [selectClassF, hlo],
    fun x s => ⟨fun hin => ?stores, fun hpast => ?raises⟩⟩
  case stores =>
    have hb := (s.getV x).isLt
    have hdigit := fun {k} hk hmem => read_decimalDigits s (s.getV x) (a := s.i.toNat) (k := k) hk hmem
    exact ⟨_, exec_ldB_of_inMem x hin,
      (hdigit (k := 0) (by decide) (by omega)).trans (Nat.mod_eq_of_lt (by omega)),
      (hdigit (k := 1) (by decide) (by omega)).trans (Nat.mod_eq_of_lt (by omega)),
      (hdigit (k := 2) (by decide) (by omega)).trans (Nat.mod_eq_of_lt (by omega)),
      fun a ha => s.read_writeBytes_outside ha, rfl⟩
  case raises => exact exec_of_fault (i := .ldB x) (rangeFault_of_past (by decide) (by omega))

/-- Settles O27: byte k of the range is V[k]; past 0xFFF the check raises. -/
theorem storeRegistersWritesCountBytes : Obligations.StoreRegistersWritesCountBytes := by
  refine ⟨encodes_classF (lo := 0x55#8) (f := fun x => .stRegs x.val) fun d hlo => by simp [selectClassF, hlo, regOf],
    fun count s hcount => ⟨fun hin => ?stores, fun hpos hpast => ?raises⟩⟩
  case stores =>
    have hlen : (s.v.toList.take count).length = count := by simp; omega
    refine ⟨_, exec_stRegs_of_inMem hin, fun k hk => read_storedRegs s hk (by omega), fun a ha => ?_, rfl⟩
    exact s.read_writeBytes_outside (by rwa [hlen])
  case raises => exact exec_of_fault (i := .stRegs count) (rangeFault_of_past hpos hpast)

/-- Settles O28: V[k] is byte k of the range below the count; past 0xFFF the check raises. -/
theorem loadRegistersReadsCountBytes : Obligations.LoadRegistersReadsCountBytes := by
  refine ⟨encodes_classF (lo := 0x65#8) (f := fun x => .ldRegs x.val) fun d hlo => by simp [selectClassF, hlo, regOf],
    fun count s _ => ⟨fun hin => ?loads, fun hpos hpast => ?raises⟩⟩
  case loads => exact ⟨_, exec_ldRegs_of_inMem hin, s.getV_loadRegs s.i.toNat count, rfl⟩
  case raises => exact exec_of_fault (i := .ldRegs count) (rangeFault_of_past hpos hpast)

/-- Settles O29: the load reads from the range what the store wrote there. -/
theorem storeThenLoadRestoresRegisters : Obligations.StoreThenLoadRestoresRegisters := by
  intro count s t u _ hin hstore hbytes hi
  obtain rfl := Host.Outcome.next.inj ((exec_stRegs_of_inMem hin).symm.trans hstore)
  have hload := fun r => u.getV_loadRegs u.i.toNat count r
  refine ⟨_, exec_ldRegs_of_inMem (hi ▸ hin), fun k hk => ?below, fun k hk => ?above⟩
  case below =>
    have hread : u.read (u.i.toNat + k.val) = s.getV k := by
      rw [hi, hbytes k.val hk]
      exact read_storedRegs s hk (by omega)
    exact (hload k).trans ((if_pos hk).trans hread)
  case above => exact (hload k).trans (if_neg (by omega))

end Sys2Proof

namespace Sys2Proof

/-! ## Support for the sprite: the drawn framebuffer and the collision in words (R172 to R175) -/

namespace Machine

theorem exec_drw_of_inMem {s : State} (x y : Reg) {height : Nat} (h : height = 0 ∨ s.i.toNat + height - 1 ≤ 0xFFF) :
    exec (.drw x y height) s = .next { s.drawn x y height with pc := advance s.pc.toNat } :=
  exec_of_noFault (i := .drw x y height) (rangeFault_of_inMem h)

/-- Whether the sprite that `Dxyn` draws in `s` has a 1 bit over a cell. -/
def State.lights (s : State) (x y : Reg) (height r c : Nat) : Prop :=
  spriteLights s s.i.toNat (s.getV x).toNat (s.getV y).toNat height r c

/-- Every cell after the draw is the exclusive or of the old cell and the sprite (R172). -/
theorem cell_sprite (s : State) (x y : Reg) (height : Nat) {r c : Nat} (hr : r < 32) (hc : c < 64) :
    cell (s.sprite x y height).1 r c = true ↔ ¬(cell s.fb r c = true ↔ s.lights x y height r c) := by
  have hxor : ∀ a b : Bool, (a ^^ b) = true ↔ ¬(a = true ↔ b = true) := by decide
  rw [State.sprite, cell_drawRows _ _ _ _ _ _ hr, hxor, rowsLight_readBytes _ _ _ _ _ _ _ hc, State.lights]

/-- A cell that the sprite does not light keeps its value. -/
theorem cell_sprite_of_not_lights (s : State) (x y : Reg) (height : Nat) {r c : Nat} (hr : r < 32) (hc : c < 64)
    (h : ¬ s.lights x y height r c) : cell (s.sprite x y height).1 r c = cell s.fb r c := by
  rw [Bool.eq_iff_iff, cell_sprite s x y height hr hc]
  tauto

/-- The collision: some lit cell lies under a 1 bit (R174). -/
theorem sprite_hit (s : State) (x y : Reg) (height : Nat) :
    (s.sprite x y height).2 = true ↔ ∃ r c, r < 32 ∧ c < 64 ∧ cell s.fb r c = true ∧ s.lights x y height r c := by
  rw [State.sprite, hit_drawRows]
  simp only [Bool.false_eq_true, false_or]
  refine exists_congr fun r => exists_congr fun c => and_congr_right fun _ => and_congr_right fun hc => ?_
  rw [rowsLight_readBytes _ _ _ _ _ _ _ hc, State.lights]

theorem drawn_getV_flag (s : State) (x y : Reg) (height : Nat) :
    (s.drawn x y height).getV 0xF = flagByte (s.sprite x y height).2 :=
  (State.getV_setV _ flagReg 0xF _).trans (if_pos rfl)

theorem drawn_getV_of_ne (s : State) (x y : Reg) (height : Nat) {r : Reg} (h : r ≠ 0xF) :
    (s.drawn x y height).getV r = s.getV r :=
  (State.getV_setV _ flagReg r _).trans (if_neg h)

theorem flagByte_eq_one_iff (b : Bool) : flagByte b = 1#8 ↔ b = true := by
  cases b <;> decide

/-- The flag after a draw is the collision. -/
theorem drawn_flag_eq_one_iff (s : State) (x y : Reg) (height : Nat) :
    (s.drawn x y height).getV 0xF = 1#8 ↔
      ∃ r c, r < 32 ∧ c < 64 ∧ cell s.fb r c = true ∧ s.lights x y height r c := by
  rw [drawn_getV_flag, flagByte_eq_one_iff, sprite_hit]

/-- A row all of whose cells are the same is the same. -/
theorem row_ext {fb fb' : Framebuffer} {r : Fin 32} (h : ∀ c, c < 64 → cell fb r c = cell fb' r c) :
    fb[r] = fb'[r] := by
  apply BitVec.eq_of_getLsbD_eq
  intro c hc
  have hcell := h c hc
  rwa [cell_of_lt _ _ r.isLt, cell_of_lt _ _ r.isLt] at hcell

end Machine

open Machine

/-- Settles O31: the drawn cells and the collision, by the laws of the sprite compositor; past 0xFFF the check
raises. -/
theorem drawXorsTheSpriteAndReportsCollision : Obligations.DrawXorsTheSpriteAndReportsCollision := by
  refine ⟨fun w hw => ?decodes, fun x y height s _ => ⟨fun hin => ?draws, fun hpos hpast => ?raises⟩⟩
  case decodes =>
    have hcls : (describe w).cls = 0xD#4 := describe_of_mask hw 12 4 (by decide)
    have hselect : select (describe w)
        = some (.drw (regOf (describe w).x) (regOf (describe w).y) (describe w).n.toNat) := by
      simp [select, hcls]
    rw [decodeWord, hselect, regOf_describe_x, regOf_describe_y, describe_n_toNat]
    rfl
  case draws =>
    refine ⟨_, exec_drw_of_inMem x y hin, fun r c hr hc => cell_sprite s x y height hr hc, ?flag,
      drawn_flag_eq_one_iff s x y height, fun r hr => drawn_getV_of_ne s x y height hr, rfl⟩
    case flag =>
      have hflag := drawn_getV_flag s x y height
      exact (flagByte_eq_or _).symm.imp hflag.trans hflag.trans
  case raises => exact exec_of_fault (i := .drw x y height) (rangeFault_of_past hpos hpast)

/-- Settles O32: a row that the sprite does not reach has no lit cell, and no row from 32 on has a cell. -/
theorem rowsPastTheBottomAreDropped : Obligations.RowsPastTheBottomAreDropped := by
  intro x y height s t hin hexec
  obtain rfl := Host.Outcome.next.inj ((exec_drw_of_inMem x y hin).symm.trans hexec)
  have hkept : ∀ r : Fin 32, r.val < (s.getV y).toNat ∨ (s.getV y).toNat + height ≤ r.val →
      (s.sprite x y height).1[r] = s.fb[r] := fun r hout => row_ext fun c hc =>
    cell_sprite_of_not_lights s x y height r.isLt hc fun ⟨hfirst, hlast, _⟩ => by omega
  refine ⟨fun hbottom => ⟨?_, ?_⟩, hkept⟩
  · exact Vector.ext fun r hr => hkept ⟨r, hr⟩ (.inl (Nat.lt_of_lt_of_le hr hbottom))
  · have hdark : (s.sprite x y height).2 = false := by
      rw [← Bool.not_eq_true, sprite_hit]
      rintro ⟨r, c, hr, -, -, hfirst, -⟩
      omega
    exact (drawn_getV_flag s x y height).trans (by rw [hdark]; rfl)

namespace Machine

/-- A draw keeps the sprite of the same draw, when V[0xF] is no origin register. -/
theorem drawn_lights (s : State) {x y : Reg} (hx : x ≠ 0xF) (hy : y ≠ 0xF) (pc : Word) (height r c : Nat) :
    ({ s.drawn x y height with pc := pc } : State).lights x y height r c ↔ s.lights x y height r c := by
  have hvx : ({ s.drawn x y height with pc := pc } : State).getV x = s.getV x := drawn_getV_of_ne s x y height hx
  have hvy : ({ s.drawn x y height with pc := pc } : State).getV y = s.getV y := drawn_getV_of_ne s x y height hy
  rw [State.lights, hvx, hvy]
  rfl

end Machine

/-- Settles O33: the second draw is by the same sprite, and an exclusive or taken twice is none; it collides where the
first left a lit cell under the sprite, which is where it lit a dark one. -/
theorem drawingTwiceRestoresTheFramebuffer : Obligations.DrawingTwiceRestoresTheFramebuffer := by
  intro x y height s t u hx hy hin hfirst hsecond
  obtain rfl := Host.Outcome.next.inj ((exec_drw_of_inMem x y hin).symm.trans hfirst)
  generalize ht : ({ s.drawn x y height with pc := advance s.pc.toNat } : State) = t at hsecond
  have hin' : height = 0 ∨ t.i.toNat + height - 1 ≤ 0xFFF := by rw [← ht]; exact hin
  have hlights : ∀ r c, t.lights x y height r c ↔ s.lights x y height r c := fun r c => by
    rw [← ht]; exact drawn_lights s hx hy _ height r c
  have hcell : ∀ {r c}, r < 32 → c < 64 →
      (cell t.fb r c = true ↔ ¬(cell s.fb r c = true ↔ s.lights x y height r c)) := fun hr hc => by
    rw [← ht]; exact cell_sprite s x y height hr hc
  obtain rfl := Host.Outcome.next.inj ((exec_drw_of_inMem x y hin').symm.trans hsecond)
  refine ⟨fb_ext fun r c hr hc => ?restored, (drawn_flag_eq_one_iff t x y height).trans ?collision⟩
  case restored =>
    rw [Bool.eq_iff_iff]
    refine (cell_sprite t x y height hr hc).trans ?_
    rw [hlights, hcell hr hc]
    tauto
  case collision =>
    refine exists_congr fun r => exists_congr fun c => and_congr_right fun hr => and_congr_right fun hc => ?_
    rw [hlights, ← Bool.not_eq_true, hcell hr hc]
    tauto

end Sys2Proof
